-- ==== Sys2Proof/Word.lean ====
section
/-! DEFINITION. The two word types of the block: a byte of a byte sequence (R8) and a 32-bit register (R6). -/

namespace Sys2Proof

/-- A byte of BUF or of a byte sequence: 0 .. 255 (R8). -/
abbrev Byte := BitVec 8

/-- A 32-bit register, command word or host data word (R6). -/
abbrev Word := BitVec 32

end Sys2Proof
end

