-- ==== Sys2Proof/Config.lean ====
section
/-! DEFINITION. What is fixed for the machine: the constants of R4, the platform parameters of R5, and the one free value
(the contents of BUF after a reset, R322). -/

namespace Sys2Proof.Config

/-! The constants of R4. -/

abbrev uf2BlockBytes : Nat := 512
abbrev uf2PayloadBytes : Nat := 256
abbrev uf2PayloadOffset : Nat := 32
abbrev uf2Magic0 : Nat := 0x0A324655
abbrev uf2Magic1 : Nat := 0x9E5D5157
abbrev uf2MagicEnd : Nat := 0x0AB16F30
/-- The largest payload-size field decode accepts: 512 - 32 - 4 (R97, D16). -/
abbrev uf2MaxPayload : Nat := 476
abbrev pageBytes : Nat := 2048
abbrev footerBytes : Nat := 8
abbrev pageBodyBytes : Nat := 2040
abbrev checksumSeed : Nat := 123
abbrev checksumMult : Nat := 23
abbrev checksumMod : Nat := 65536
/-- The packed sample-info record (R106). -/
abbrev siRecordBytes : Nat := 1072
/-- The largest record offset: 2040 - 1072 (R107). -/
abbrev siMaxOffset : Nat := 968
/-- The unpacked record image (R110). -/
abbrev uriBytes : Nat := 1100
/-- The bytes a record and its unpacked image share: waveform, splits and sample length (R111). -/
abbrev siSharedBytes : Nat := 1060
/-- The register window's size in bytes (R25). -/
abbrev windowBytes : Nat := 64

/-- The platform parameters of R5 that the block depends on. No source gives their value, so the machine's state carries
them and no step changes them: what is proved of every state holds on every platform (entry 7). -/
structure Platform where
  /-- BUF_BYTES, the size of the buffer memory in bytes. -/
  bufBytes : Nat
  /-- BLOCK_BASE, the host address of the register window. -/
  blockBase : Nat
  /-- BUF_BASE, the host address of BUF byte 0. -/
  bufBase : Nat
  deriving DecidableEq, Repr

/-- The platform of `State.reset`. DESIGN CHOICE, unsafe (entry 7): BUF_BYTES is the example value of 95_test_vectors.md,
the two bases are the model's own; R5 leaves all three OPEN. -/
def examplePlatform : Platform := { bufBytes := 0x10000, blockBase := 0, bufBase := 0x10000 }

/-- The free value of R322 (93 I1): what BUF byte `addr` holds after the reset numbered `epoch` until something writes it.
It has no body: no proof can see a value (entry 4). -/
opaque bufDraw (epoch addr : Nat) : Byte

end Sys2Proof.Config
end

