-- ==== Sys2Proof/Machine/Bytes.lean ====
section
/-! DEFINITION. Byte sequences and their little-endian fields (R8, R9, R63). -/

namespace Sys2Proof.Machine

/-- `s[o : o+n]`, the slice of `n` bytes at offset `o` (R8). -/
def slice (s : List Byte) (o n : Nat) : List Byte := (s.drop o).take n

/-- `s with [o : o+len(t)] := t` (R8). -/
def splice (s : List Byte) (o : Nat) (t : List Byte) : List Byte := s.take o ++ t ++ s.drop (o + t.length)

/-- `s[o]` as a number (R8). Every rule reads inside the sequence, so the default is never the result (entry 21). -/
def byteOf (s : List Byte) (o : Nat) : Nat := (s.getD o 0).toNat

/-- The number a little-endian byte sequence stands for: the first byte is the least significant (R9, R63). -/
def leNat : List Byte → Nat
  | [] => 0
  | b :: bs => b.toNat + 256 * leNat bs

/-- The `n` little-endian bytes of `v` (R9's put16 and put32, R10's MemWrite). -/
def putLe : Nat → Nat → List Byte
  | 0, _ => []
  | n + 1, v => BitVec.ofNat 8 v :: putLe n (v / 256)

/-- `le16(s, o)` (R9). -/
def le16 (s : List Byte) (o : Nat) : Nat := leNat (slice s o 2)

/-- `le32(s, o)` (R9). -/
def le32 (s : List Byte) (o : Nat) : Nat := leNat (slice s o 4)

/-- `put16(v)` (R9). -/
def put16 (v : Nat) : List Byte := putLe 2 v

/-- `put32(v)` (R9). -/
def put32 (v : Nat) : List Byte := putLe 4 v

/-- `zeros(n)` (R8). -/
def zeros (n : Nat) : List Byte := List.replicate n 0

/-- `sext_8(b) mod 2^32`: a signed byte as a 32-bit two's-complement number (R9, R110). -/
def sext8To32 (b : Nat) : Nat := if b < 128 then b else b + (2 ^ 32 - 2 ^ 8)

end Sys2Proof.Machine
end

