-- ==== Sys2Proof/Syntax.lean ====
section
/-! DEFINITION. The seven commands of the opcode map (R91). A command has no operand field: every operand comes from a
register (R93). -/

namespace Sys2Proof

/-- One constructor per row of spec/opcode_table.json. -/
inductive Instr where
  /-- UF2_DECODE, OPC 0x01 (R143). -/
  | uf2Decode
  /-- UF2_ENCODE, OPC 0x02 (R147). -/
  | uf2Encode
  /-- CHECKSUM, OPC 0x03 (R181). -/
  | checksum
  /-- LOCATE_SLOT, OPC 0x04 (R204). -/
  | locateSlot
  /-- SI_UNPACK, OPC 0x05 (R231). -/
  | siUnpack
  /-- SI_PACK, OPC 0x06 (R233). -/
  | siPack
  /-- PATCH, OPC 0x07 (R235). -/
  | patch
  deriving DecidableEq, Repr

end Sys2Proof
end

