-- ==== Sys2Proof/WellFormed.lean ====
section
/-! DEFINITION. What is well-formed: an instruction (always: it has no operand field), a command word (R90, R91), a
platform (R5). -/

namespace Sys2Proof

/-- A command carries no operand, so every `Instr` is well-formed (R93); what can be ill-formed is a command word. -/
def Instr.wf : Instr → Bool
  | .uf2Decode => true
  | .uf2Encode => true
  | .checksum => true
  | .locateSlot => true
  | .siUnpack => true
  | .siPack => true
  | .patch => true

/-- A legal command word: bits 31:8 are 0 and bits 7:0 are an opcode of R91 (R92 says which words are illegal). -/
abbrev LegalCommand (w : Word) : Prop :=
  w.extractLsb' 8 24 = 0 ∧ 1 ≤ (w.extractLsb' 0 8).toNat ∧ (w.extractLsb' 0 8).toNat ≤ 7

/-- The constraints R5 puts on the platform parameters: BUF_BYTES in 1 .. 2^32, BLOCK_BASE 64-byte aligned, and the two
windows disjoint. -/
abbrev Config.Platform.Wf (p : Config.Platform) : Prop :=
  1 ≤ p.bufBytes ∧ p.bufBytes ≤ 2 ^ 32 ∧ p.blockBase % 64 = 0 ∧
    (p.blockBase + Config.windowBytes ≤ p.bufBase ∨ p.bufBase + p.bufBytes ≤ p.blockBase)

end Sys2Proof
end

