-- ==== Sys2Proof/Decode.lean ====
section
/-! DEFINITION. The command decoder (R90 to R92), total on every word and every byte sequence, rejecting by name, and the
encoder from the same table. -/

namespace Sys2Proof

/-- Why a word or a byte sequence is no command. All of these make the command illegal (R92), which is an error end and
not a stop. -/
inductive DecodeReject where
  /-- Fewer than the four bytes of a command word (R90: one length, 32 bits). -/
  | truncated (available : Nat)
  /-- Bits 31:8 are not all 0. -/
  | reservedBits (w : Word)
  /-- Bits 7:0 are 0x00 or 0x08 .. 0xFF. -/
  | reservedOpcode (opc : Nat)
  deriving DecidableEq, Repr

/-- The opcode map of R91 on the OPC field. -/
def decodeOpcode : Nat → Except DecodeReject Instr
  | 0x01 => .ok .uf2Decode
  | 0x02 => .ok .uf2Encode
  | 0x03 => .ok .checksum
  | 0x04 => .ok .locateSlot
  | 0x05 => .ok .siUnpack
  | 0x06 => .ok .siPack
  | 0x07 => .ok .patch
  | opc => .error (.reservedOpcode opc)

/-- The command a 32-bit word written to CMD names (R90, R91), or the reason it names none (R92). -/
def decodeWord (w : Word) : Except DecodeReject Instr :=
  if w.toNat / 256 ≠ 0 then .error (.reservedBits w) else decodeOpcode (w.toNat % 256)

/-- A command word laid out as bytes, least significant first (R63; DEDUCED for command words, entry 16). -/
def decodeBytes (bs : List Byte) : Except DecodeReject (Instr × List Byte) :=
  if bs.length < 4 then .error (.truncated bs.length)
  else
    match decodeWord (BitVec.ofNat 32 (Machine.le32 bs 0)) with
    | .ok i => .ok (i, bs.drop 4)
    | .error e => .error e

/-- The command word of an instruction (R91). -/
def encode : Instr → Word
  | .uf2Decode => 0x00000001
  | .uf2Encode => 0x00000002
  | .checksum => 0x00000003
  | .locateSlot => 0x00000004
  | .siUnpack => 0x00000005
  | .siPack => 0x00000006
  | .patch => 0x00000007

/-- The four bytes of a command word, least significant first. -/
def encodeBytes (i : Instr) : List Byte := Machine.put32 (encode i).toNat

/-- The opcode table's word as this decoder reads it: the low `nbits` bits of `w`, every higher bit 0. -/
def decodeTableWord (nbits w : Nat) : Option Instr :=
  match decodeBytes (Machine.put32 (w % 2 ^ nbits)) with
  | .ok (i, _) => some i
  | .error _ => none

/-! Every constructor's decoding, on the word written out from R91: RSVD (24 zero bits) and then OPC. -/

theorem decode_uf2Decode : decodeWord 0b000000000000000000000000_00000001#32 = .ok .uf2Decode := by decide
theorem decode_uf2Encode : decodeWord 0b000000000000000000000000_00000010#32 = .ok .uf2Encode := by decide
theorem decode_checksum : decodeWord 0b000000000000000000000000_00000011#32 = .ok .checksum := by decide
theorem decode_locateSlot : decodeWord 0b000000000000000000000000_00000100#32 = .ok .locateSlot := by decide
theorem decode_siUnpack : decodeWord 0b000000000000000000000000_00000101#32 = .ok .siUnpack := by decide
theorem decode_siPack : decodeWord 0b000000000000000000000000_00000110#32 = .ok .siPack := by decide
theorem decode_patch : decodeWord 0b000000000000000000000000_00000111#32 = .ok .patch := by decide

end Sys2Proof
end

