-- ==== Sys2Proof/Machine/Errors.lean ====
section
/-! DEFINITION. The errors a command can raise and their codes (R281). -/

namespace Sys2Proof.Machine

/-- The error names of R281 that the block raises. NONE (0) is no error and UNSUPPORTED_AUDIO (2) is never raised (R296). -/
inductive CmdError where
  | nonContiguous
  | slotNotResolved
  | badUf2Length
  | badPayloadLength
  | payloadSizeRange
  | addressOverflow
  | badImageLength
  | badPageLength
  | recordOutOfBounds
  | regionError
  | illegalCommand
  deriving DecidableEq, Repr

/-- ERRCODE.CODE of each error (R281). -/
def CmdError.code : CmdError → BitVec 8
  | .nonContiguous => 1
  | .slotNotResolved => 3
  | .badUf2Length => 4
  | .badPayloadLength => 5
  | .payloadSizeRange => 6
  | .addressOverflow => 7
  | .badImageLength => 8
  | .badPageLength => 9
  | .recordOutOfBounds => 10
  | .regionError => 11
  | .illegalCommand => 12

end Sys2Proof.Machine
end

