-- ==== Sys2Proof/Machine/HostEvent.lean ====
section
/-! DEFINITION. What the host can do to the block, as plain data: bus transactions (R60 to R62, R112), polling (R113),
reset (R320), and the mark that says where the engine's completion step falls in the single order of R71. -/

namespace Sys2Proof.Machine

/-- One host transaction: a read or a write of `width` bytes at `addr` (R112's (direction, address, width, value)). -/
inductive Access where
  | read (addr width : Nat)
  | write (addr width : Nat) (value : Word)
  deriving DecidableEq, Repr

/-- One entry of the single total order of R71: the host's next action, or the engine's turn. -/
inductive HostEvent where
  /-- A transaction at a host address, which the windows of R60 route. -/
  | bus (a : Access)
  /-- A transaction the platform hands to the BUF port with a BUF address, in or out of range (R62; entry 10). -/
  | bufPort (a : Access)
  /-- `poll`: read STATUS until BUSY is 0 (R113). -/
  | poll
  /-- The reset input is asserted (R320). -/
  | reset
  /-- The engine's completion step falls here if a command is launched (R48, R333; entry 1). -/
  | engineTurn
  deriving DecidableEq, Repr

end Sys2Proof.Machine
end

