-- ==== Sys2Proof/Machine/State.lean ====
section
/-! DEFINITION. The machine's state as plain data: everything the spec gives the block (10_state.md), the platform it is
placed in, and the host's pending transactions. -/

namespace Sys2Proof.Machine

/-- What stops the machine with a fault: nothing. A failing command takes the error end of R284 and the machine goes on;
a host violation sets HVIOL (R288); no trap exists (R286). Nobody raises a fault, so the type has no constructor
(entry 23); safe. -/
inductive Fault where
  deriving DecidableEq, Repr

/-- What the model refuses to run. -/
inductive Refusal where
  /-- Raised by an arm of `exec` whose instruction has no meaning yet; no arm raises it. Safe: the machine stops. -/
  | notModelled (mnemonic : String)
  deriving DecidableEq, Repr

/-- The fields of STATUS (R27). Bits 31:5 are hard-wired 0 and have no storage (entry 13). -/
structure Status where
  /-- Bit 0 (R28). -/
  busy : Bool
  /-- Bit 1 (R30). -/
  done : Bool
  /-- Bit 2 (R31). -/
  err : Bool
  /-- Bit 3 (R32). -/
  found : Bool
  /-- Bit 4, sticky (R29). -/
  hviol : Bool
  deriving DecidableEq, Repr

/-- The block, its platform and its host. -/
structure State where
  /-- BUF_BYTES, BLOCK_BASE, BUF_BASE: no step changes them (R5, entry 7). -/
  platform : Config.Platform
  /-- CMDL, the command word latched by the last launch (R22, R47). -/
  cmdl : Word
  /-- STATUS (R27). -/
  status : Status
  /-- ERRCODE.CODE, bits 7:0; bits 31:8 are hard-wired 0 (R33). -/
  errcode : BitVec 8
  /-- SRC_ADDR (R34). -/
  srcAddr : Word
  /-- SRC_LEN (R35). -/
  srcLen : Word
  /-- DST_ADDR (R36). -/
  dstAddr : Word
  /-- DST_LEN (R37). -/
  dstLen : Word
  /-- REC_ADDR (R38). -/
  recAddr : Word
  /-- REC_OFFSET (R39). -/
  recOffset : Word
  /-- BASE_ADDR (R40). -/
  baseAddr : Word
  /-- FAMILY_ID (R41). -/
  familyId : Word
  /-- SLOT_SEL bits 15:0; bits 31:16 are hard-wired 0 (R42). -/
  slotSel : BitVec 16
  /-- PAGE_OFFSET (R43). -/
  pageOffset : Word
  /-- CHECKSUM.VALUE, bits 15:0; bits 31:16 are hard-wired 0 (R44). -/
  checksum : BitVec 16
  /-- BUF (R24): the bytes written since the reset, addresses strictly rising; an unlisted byte is unwritten and reads as
  the free value `Config.bufDraw epoch address` (R322; entries 4 and 6). -/
  buf : List Host.Cell
  /-- The model's own: how many resets lie behind, which picks the draw of BUF's unspecified bytes (entry 5). -/
  epoch : Nat
  /-- The model's own: what the host will still do, in the single order of R71 (entry 1). -/
  inbox : List HostEvent
  /-- The model's own: the words the block has answered to host reads, oldest first (entry 11). -/
  replies : List Word
  deriving DecidableEq, Repr

/-- The block on platform `p` right after the reset numbered `epoch`: every register 0, CMDL 0, idle, every BUF byte
unspecified (R46, R320, R322). The host has nothing pending and has read nothing (entries 1 and 11). -/
def State.resetAt (p : Config.Platform) (epoch : Nat) : State :=
  { platform := p
    cmdl := 0
    status := { busy := false, done := false, err := false, found := false, hviol := false }
    errcode := 0
    srcAddr := 0
    srcLen := 0
    dstAddr := 0
    dstLen := 0
    recAddr := 0
    recOffset := 0
    baseAddr := 0
    familyId := 0
    slotSel := 0
    pageOffset := 0
    checksum := 0
    buf := []
    epoch := epoch
    inbox := []
    replies := [] }

/-- The machine right after reset, on the example platform (DESIGN CHOICE for the platform and the draw's number,
entries 5 and 7; every register value is R46's). -/
def State.reset : State := State.resetAt Config.examplePlatform 0

end Sys2Proof.Machine
end

