-- ==== Sys2Proof/Machine/Flags.lean ====
section
/-! DEFINITION. STATUS: the word the host reads (R27) and what the launch and the two ends of a command do to its bits
(R28 to R32, R47, R48, R284, R285). -/

namespace Sys2Proof.Machine

/-- STATUS as the host reads it: BUSY, DONE, ERR, FOUND, HVIOL in bits 0 .. 4, bits 31:5 zero (R27). -/
def Status.toWord (st : Status) : Word :=
  BitVec.ofNat 32 (st.busy.toNat + 2 * st.done.toNat + 4 * st.err.toNat + 8 * st.found.toNat + 16 * st.hviol.toNat)

/-- The launch: BUSY set, DONE, ERR and FOUND cleared, HVIOL unchanged (R47). -/
def Status.launched (st : Status) : Status :=
  { busy := true, done := false, err := false, found := false, hviol := st.hviol }

/-- The success end: DONE set, BUSY and ERR cleared; FOUND is set by a command that resolved a page and is otherwise as
the launch left it (R32, R48, R285). -/
def Status.succeeded (st : Status) (resolved : Bool) : Status :=
  { busy := false, done := true, err := false, found := resolved || st.found, hviol := st.hviol }

/-- The error end: DONE and ERR set, BUSY cleared, FOUND as the launch left it (R284). -/
def Status.failed (st : Status) : Status :=
  { busy := false, done := true, err := true, found := st.found, hviol := st.hviol }

/-- A host violation is recorded (R29). -/
def Status.violated (st : Status) : Status :=
  { busy := st.busy, done := st.done, err := st.err, found := st.found, hviol := true }

end Sys2Proof.Machine
end

