-- ==== Sys2Proof/Machine/Ops.lean ====
section
/-! DEFINITION. The named operations over BUF and the registers: reading and writing bytes (R10), the launch (R47), the two
ends of a command (R48, R284, R285), the host's register accesses by name (R25 to R45), reset (R320). -/

namespace Sys2Proof.Machine

/-! BUF. -/

/-- The cells of a memory (R24). -/
abbrev Memory := List Host.Cell

/-- The canonical form: addresses strictly rising. No cell equals what an unlisted address holds, since that is no
written value at all (entry 6). -/
def Memory.wf : Memory → Bool
  | [] => true
  | [_] => true
  | c :: d :: m => decide (c.1 < d.1) && Memory.wf (d :: m)

/-- The byte written at `a`, if one has been. -/
def cellAt : Memory → Nat → Option Byte
  | [], _ => none
  | c :: m, a => if c.1 = a then some c.2 else cellAt m a

/-- `BUF[a]` (R10): the byte written there, or the free value of R322. -/
def State.byteAt (s : State) (a : Nat) : Byte := (cellAt s.buf a).getD (Config.bufDraw s.epoch a)

/-- Bytes `a .. a+n-1`, reading along the sorted list: `hint` is where the walk stands, and a byte the hint does not show
is looked up in the whole memory. `Laws.Memory.bytes_eq_map` says that it is `[BUF[a], …, BUF[a+n-1]]` of R10. -/
def readFrom (s : State) : Memory → Nat → Nat → List Byte
  | _, _, 0 => []
  | [], a, n + 1 => s.byteAt a :: readFrom s [] (a + 1) n
  | c :: hint, a, n + 1 =>
    if c.1 = a then c.2 :: readFrom s hint (a + 1) n else s.byteAt a :: readFrom s (c :: hint) (a + 1) n

/-- `Bytes(a, n)` (R10). -/
def State.bytes (s : State) (a n : Nat) : List Byte := readFrom s (s.buf.dropWhile fun c => decide (c.1 < a)) a n

/-- The cells of a byte sequence laid out from address `a`. -/
def cellsFrom : Nat → List Byte → Memory
  | _, [] => []
  | a, b :: bs => (a, b) :: cellsFrom (a + 1) bs

/-- `WriteBytes(a, s)` (R10): one replacement of the region, nothing else touched. -/
def writeBytes (m : Memory) (a : Nat) : List Byte → Memory
  | [] => m
  | b :: bs =>
    (m.filter fun c => decide (c.1 < a)) ++ cellsFrom a (b :: bs) ++
      (m.filter fun c => decide (a + (b :: bs).length ≤ c.1))

/-- `MemRead(a, n)` (R10), as the 32-bit word the host is answered. -/
def State.memRead (s : State) (a n : Nat) : Word := BitVec.ofNat 32 (leNat (s.bytes a n))

/-- `MemWrite(a, n, v)` (R10). -/
def State.memWrite (s : State) (a n : Nat) (v : Word) : State :=
  { s with buf := writeBytes s.buf a (putLe n v.toNat) }

/-! Launch and the two ends of a command. -/

/-- The launch of command word `w` (R47). -/
def launch (s : State) (w : Word) : State :=
  { s with
    cmdl := w
    status := s.status.launched
    errcode := 0
    dstLen := 0
    pageOffset := 0
    checksum := 0 }

/-- What a command that succeeded hands to its completion step (R48): the bytes of its output region, if it has one, the
resolved page's offset (PAGE_OFFSET and FOUND), and the checksum. -/
structure Results where
  out : Option (List Byte) := none
  page : Option Nat := none
  sum : Option Nat := none
  deriving DecidableEq, Repr

/-- The error end, the block's only exception (R284, R286): ERR, DONE and ERRCODE written, BUSY cleared, BUF and the
result registers untouched. There is no handler and no return from it (R287): the next launch clears it. -/
def errorEnd (s : State) (e : CmdError) : State :=
  { s with
    status := s.status.failed
    errcode := e.code }

/-- The success end (R48, R285): the output bytes at DST_ADDR, DST_LEN, and the results the command sets; a result it
does not set stays as the launch left it. -/
def successEnd (s : State) (r : Results) : State :=
  { s with
    buf := writeBytes s.buf s.dstAddr.toNat (r.out.getD [])
    dstLen := BitVec.ofNat 32 (r.out.getD []).length
    pageOffset := (r.page.map (BitVec.ofNat 32)).getD s.pageOffset
    checksum := (r.sum.map (BitVec.ofNat 16)).getD s.checksum
    status := s.status.succeeded r.page.isSome
    errcode := 0 }

/-- Reset while the host still has `inbox` to do (R320 to R323): a fresh draw of BUF, every register at its reset value;
the platform, the host's pending transactions and what it has read are not the block's (entry 22). -/
def resetBlock (s : State) : State :=
  { State.resetAt s.platform (s.epoch + 1) with
    inbox := s.inbox
    replies := s.replies }

/-! The register window by name. -/

/-- The registers of R25. -/
inductive RegName where
  | cmd
  | status
  | errcode
  | srcAddr
  | srcLen
  | dstAddr
  | dstLen
  | recAddr
  | recOffset
  | baseAddr
  | familyId
  | slotSel
  | pageOffset
  | checksum
  deriving DecidableEq, Repr

/-- The offset of a register in the window (R25). -/
def RegName.offset : RegName → Nat
  | .cmd => 0x00
  | .status => 0x04
  | .errcode => 0x08
  | .srcAddr => 0x0C
  | .srcLen => 0x10
  | .dstAddr => 0x14
  | .dstLen => 0x18
  | .recAddr => 0x1C
  | .recOffset => 0x20
  | .baseAddr => 0x24
  | .familyId => 0x28
  | .slotSel => 0x2C
  | .pageOffset => 0x30
  | .checksum => 0x34

/-- The register at a word offset of the window; 0x38 and 0x3C hold none (R45). -/
def regAt? : Nat → Option RegName
  | 0x00 => some .cmd
  | 0x04 => some .status
  | 0x08 => some .errcode
  | 0x0C => some .srcAddr
  | 0x10 => some .srcLen
  | 0x14 => some .dstAddr
  | 0x18 => some .dstLen
  | 0x1C => some .recAddr
  | 0x20 => some .recOffset
  | 0x24 => some .baseAddr
  | 0x28 => some .familyId
  | 0x2C => some .slotSel
  | 0x30 => some .pageOffset
  | 0x34 => some .checksum
  | _ => none

/-- What a host read of a register returns: CMD reads 0 (R26), hard-wired bits read 0 (R27, R33, R42, R44). -/
def readReg (s : State) : RegName → Word
  | .cmd => 0
  | .status => s.status.toWord
  | .errcode => s.errcode.setWidth 32
  | .srcAddr => s.srcAddr
  | .srcLen => s.srcLen
  | .dstAddr => s.dstAddr
  | .dstLen => s.dstLen
  | .recAddr => s.recAddr
  | .recOffset => s.recOffset
  | .baseAddr => s.baseAddr
  | .familyId => s.familyId
  | .slotSel => s.slotSel.setWidth 32
  | .pageOffset => s.pageOffset
  | .checksum => s.checksum.setWidth 32

/-- What a host write of a register does while idle: CMD launches (R26), an RW register is set, SLOT_SEL keeps its low
16 bits (R42), a read-only register ignores it (R45). -/
def writeReg (s : State) (v : Word) : RegName → State
  | .cmd => launch s v
  | .status => s
  | .errcode => s
  | .srcAddr => { s with srcAddr := v }
  | .srcLen => { s with srcLen := v }
  | .dstAddr => { s with dstAddr := v }
  | .dstLen => s
  | .recAddr => { s with recAddr := v }
  | .recOffset => { s with recOffset := v }
  | .baseAddr => { s with baseAddr := v }
  | .familyId => { s with familyId := v }
  | .slotSel => { s with slotSel := v.setWidth 16 }
  | .pageOffset => s
  | .checksum => s

/-! The host's side of an access. -/

/-- The block answers a host read. -/
def reply (s : State) (v : Word) : State := { s with replies := s.replies ++ [v] }

/-- A host violation sets HVIOL and nothing else (R29, R288). -/
def violate (s : State) : State := { s with status := s.status.violated }

end Sys2Proof.Machine
end

