-- ==== Sys2Proof/Machine/Operands.lean ====
section
/-! DEFINITION. A command's operands (R49, R93), the region checks (R64, R65), and the one completion shared by the
commands (R48, R283). -/

namespace Sys2Proof.Machine

/-- A region of BUF: bytes `addr .. addr+len-1` (R64). -/
structure Region where
  addr : Nat
  len : Nat
  deriving DecidableEq, Repr

/-- Inside BUF: `addr + len ≤ BUF_BYTES`, over unbounded integers (R64). -/
def Region.inside (r : Region) (bufBytes : Nat) : Bool := decide (r.addr + r.len ≤ bufBytes)

/-- Two regions share a byte (R65). -/
def Region.overlaps (r q : Region) : Bool :=
  decide (0 < r.len ∧ 0 < q.len ∧ r.addr < q.addr + q.len ∧ q.addr < r.addr + r.len)

/-- The primary input region (SRC_ADDR, SRC_LEN). -/
def srcRegion (s : State) : Region := { addr := s.srcAddr.toNat, len := s.srcLen.toNat }

/-- The unpacked-record input region (REC_ADDR, 1100). -/
def recRegion (s : State) : Region := { addr := s.recAddr.toNat, len := Config.uriBytes }

/-- The output region of `len` bytes at DST_ADDR. -/
def dstRegion (s : State) (len : Nat) : Region := { addr := s.dstAddr.toNat, len := len }

/-- The bytes of a region. -/
def State.region (s : State) (r : Region) : List Byte := s.bytes r.addr r.len

/-- SLOT_SEL.SLOT_ID, bits 7:0 (R42, R93). -/
def slotId (s : State) : Nat := s.slotSel.toNat % 256

/-- SLOT_SEL.VERSION, bits 15:8 (R42, R93). -/
def slotVersion (s : State) : Nat := s.slotSel.toNat / 256

/-- The input regions of each command (R49). -/
def inputRegions (s : State) : Instr → List Region
  | .uf2Decode => [srcRegion s]
  | .uf2Encode => [srcRegion s]
  | .checksum => [srcRegion s]
  | .locateSlot => [srcRegion s]
  | .siUnpack => [srcRegion s]
  | .siPack => [srcRegion s, recRegion s]
  | .patch => [srcRegion s, recRegion s]

/-- Every input region is inside BUF: the first check of every command (R283 step 2). -/
def inputsInside (s : State) (inputs : List Region) : Bool :=
  inputs.all fun r => r.inside s.platform.bufBytes

/-- The output region is inside BUF and overlaps no input region: the last check (R65, R283 step 7). -/
def outputAllowed (s : State) (inputs : List Region) (len : Nat) : Bool :=
  (dstRegion s len).inside s.platform.bufBytes && inputs.all fun r => !(dstRegion s len).overlaps r

/-- The end of a command whose input regions are inside BUF and whose unit function answered `r` (R48): an error ends it,
an output region is checked last, and a command with no output region does not read DST_ADDR (R36). -/
def finish (s : State) (inputs : List Region) (r : Except CmdError Results) : State :=
  match r with
  | .error e => errorEnd s e
  | .ok res =>
    match res.out with
    | none => successEnd s res
    | some bs => if outputAllowed s inputs bs.length then successEnd s res else errorEnd s .regionError

end Sys2Proof.Machine
end

