-- ==== Sys2Proof/Machine/Checksum.lean ====
section
/-! DEFINITION. The checksum generator: unit function checksum (R180) and command CHECKSUM (R181). -/

namespace Sys2Proof.Machine

/-- One step of the rolling hash, reduced at once (R180). -/
def checksumStep (acc : Nat) (b : Byte) : Nat := (acc * Config.checksumMult + b.toNat) % Config.checksumMod

/-- checksum (R180): seed 123, multiplier 23, modulus 65536, bytes in sequence order. -/
def checksum (s : List Byte) : Nat := s.foldl checksumStep Config.checksumSeed

/-- CHECKSUM (R181): any region of any length; no output region. -/
def execChecksum (s : State) : Host.Outcome State Fault Refusal :=
  if inputsInside s (inputRegions s .checksum) then
    .next (finish s (inputRegions s .checksum) (.ok { sum := some (checksum (s.region (srcRegion s))) }))
  else .next (errorEnd s .regionError)

end Sys2Proof.Machine
end

