-- ==== Sys2Proof/Machine/SlotResolver.lean ====
section
/-! DEFINITION. The flash-page slot resolver: the page footer (R102), unit function locate (R200), command LOCATE_SLOT
(R204). -/

namespace Sys2Proof.Machine

/-- Footer slotId of the page at image offset `o` (R102). -/
def footerSlot (img : List Byte) (o : Nat) : Nat := byteOf img (o + 2040)

/-- Footer schema version of the page at image offset `o` (R102). -/
def footerVersion (img : List Byte) (o : Nat) : Nat := byteOf img (o + 2041)

/-- Footer stored checksum of the page at image offset `o`, little-endian by D21 (R102). No command verifies it (R183). -/
def footerChecksum (img : List Byte) (o : Nat) : Nat := le16 img (o + 2042)

/-- Footer sequence number of the page at image offset `o`, little-endian by D21 (R102). -/
def footerSequence (img : List Byte) (o : Nat) : Nat := le32 img (o + 2044)

/-- The running maximum of R200: the greatest sequence number so far, and the offset of its page if any. -/
structure Best where
  seq : Nat
  page : Option Nat
  deriving DecidableEq, Repr

/-- One page of the scan: an exact match whose sequence number is strictly greater replaces the maximum (R200 to R202). -/
def scanPage (img : List Byte) (sid ver : Nat) (best : Best) (p : Nat) : Best :=
  let o := Config.pageBytes * p
  if footerSlot img o = sid ∧ footerVersion img o = ver then
    if best.seq < footerSequence img o then { seq := footerSequence img o, page := some o } else best
  else best

/-- locate (R200): image order, the maximum starting at 0, no default offset (R203). -/
def locate (img : List Byte) (sid ver : Nat) : Except CmdError Nat :=
  if img.length % Config.pageBytes ≠ 0 then .error .badImageLength
  else
    match ((List.range (img.length / Config.pageBytes)).foldl (scanPage img sid ver) { seq := 0, page := none }).page with
    | none => .error .slotNotResolved
    | some o => .ok o

/-- LOCATE_SLOT (R204): no output region. -/
def execLocateSlot (s : State) : Host.Outcome State Fault Refusal :=
  if inputsInside s (inputRegions s .locateSlot) then
    .next (finish s (inputRegions s .locateSlot)
      (match locate (s.region (srcRegion s)) (slotId s) (slotVersion s) with
        | .error e => .error e
        | .ok o => .ok { page := some o }))
  else .next (errorEnd s .regionError)

/-- The slot id of sample `k` where the platform has `patternCount` patterns: 32 preset slots, then four slots a pattern,
then the samples (R103, for information; the block does not use it, D37). -/
def sampleSlotId (patternCount k : Nat) : Nat := 32 + 4 * patternCount + k

end Sys2Proof.Machine
end

