-- ==== Sys2Proof/Machine/Uf2Codec.lean ====
section
/-! DEFINITION. The UF2 codec: unit functions uf2_decode (R140) and uf2_encode (R144), commands UF2_DECODE (R143) and
UF2_ENCODE (R147). -/

namespace Sys2Proof.Machine

/-- targetAddress of the block that starts a byte sequence (R95). -/
def blockTarget (blk : List Byte) : Nat := le32 blk 12

/-- payloadSize of the block that starts a byte sequence (R95). -/
def blockSize (blk : List Byte) : Nat := le32 blk 16

/-- The loop of uf2_decode over the next `n` blocks (R140). `due` is the previous block's target address plus its payload
size, an unbounded sum (R141); block 0 has none. Only the two header fields and the payload are read (R99, R142). -/
def uf2Blocks : Option Nat → Nat → List Byte → Except CmdError (List Byte)
  | _, 0, _ => .ok []
  | due, n + 1, img =>
    if due.any (fun d => blockTarget img ≠ d) then .error .nonContiguous
    else if Config.uf2MaxPayload < blockSize img then .error .payloadSizeRange
    else
      match uf2Blocks (some (blockTarget img + blockSize img)) n (img.drop Config.uf2BlockBytes) with
      | .ok out => .ok (slice img Config.uf2PayloadOffset (blockSize img) ++ out)
      | .error e => .error e

/-- uf2_decode (R140). -/
def uf2Decode (img : List Byte) : Except CmdError (List Byte) :=
  if img.length % Config.uf2BlockBytes ≠ 0 then .error .badUf2Length
  else uf2Blocks none (img.length / Config.uf2BlockBytes) img

/-- Block `i` of the `n` blocks uf2_encode writes (R95, R144). -/
def uf2Block (base fam : Word) (n i : Nat) (chunk : List Byte) : List Byte :=
  put32 Config.uf2Magic0 ++ put32 Config.uf2Magic1 ++ put32 0 ++ put32 (base.toNat + Config.uf2PayloadBytes * i) ++
    put32 Config.uf2PayloadBytes ++ put32 i ++ put32 n ++ put32 fam.toNat ++ chunk ++ zeros 220 ++
    put32 Config.uf2MagicEnd

/-- uf2_encode (R144): it never pads (R145) and never wraps a target address (R146). -/
def uf2Encode (p : List Byte) (base fam : Word) : Except CmdError (List Byte) :=
  let n := p.length / Config.uf2PayloadBytes
  if p.length % Config.uf2PayloadBytes ≠ 0 then .error .badPayloadLength
  else if 0 < n ∧ 0xFFFFFFFF < base.toNat + Config.uf2PayloadBytes * (n - 1) then .error .addressOverflow
  else
    .ok ((List.range n).flatMap fun i =>
      uf2Block base fam n i (slice p (Config.uf2PayloadBytes * i) Config.uf2PayloadBytes))

/-- A command whose only result is its output bytes. -/
def outputOnly (r : Except CmdError (List Byte)) : Except CmdError Results :=
  match r with
  | .error e => .error e
  | .ok out => .ok { out := some out }

/-- UF2_DECODE (R143). -/
def execUf2Decode (s : State) : Host.Outcome State Fault Refusal :=
  if inputsInside s (inputRegions s .uf2Decode) then
    .next (finish s (inputRegions s .uf2Decode) (outputOnly (uf2Decode (s.region (srcRegion s)))))
  else .next (errorEnd s .regionError)

/-- UF2_ENCODE (R147). -/
def execUf2Encode (s : State) : Host.Outcome State Fault Refusal :=
  if inputsInside s (inputRegions s .uf2Encode) then
    .next (finish s (inputRegions s .uf2Encode)
      (outputOnly (uf2Encode (s.region (srcRegion s)) s.baseAddr s.familyId)))
  else .next (errorEnd s .regionError)

end Sys2Proof.Machine
end

