-- ==== Sys2Proof/Machine/SampleInfo.lean ====
section
/-! DEFINITION. The sample-metadata marshaler: unit functions si_unpack (R230), si_pack (R232) and patch (R234), commands
SI_UNPACK (R231), SI_PACK (R233) and PATCH (R235). -/

namespace Sys2Proof.Machine

/-- The URI word of note `k`: its byte sign-extended (R110). -/
def noteWord (r : List Byte) (k : Nat) : List Byte := put32 (sext8To32 (byteOf r (1060 + k)))

/-- si_unpack (R230): waveform, splits and sample length as they stand, notes sign-extended, pitched and loop
zero-extended; the two padding bytes are not returned (D44). -/
def siUnpack (page : List Byte) (off : Nat) : Except CmdError (List Byte) :=
  if Config.siMaxOffset < off then .error .recordOutOfBounds
  else
    let r := slice page off Config.siRecordBytes
    .ok (slice r 0 1024 ++ slice r 1024 32 ++ slice r 1056 4 ++ (List.range 8).flatMap (noteWord r) ++
      put32 (byteOf r 1068) ++ put32 (byteOf r 1069))

/-- si_pack (R232): the first 1060 bytes of the record replaced, everything else of the page as it was; no value is
checked (R237). -/
def siPack (page uri : List Byte) (off : Nat) : Except CmdError (List Byte) :=
  if Config.siMaxOffset < off then .error .recordOutOfBounds
  else .ok (splice page off (uri.take Config.siSharedBytes))

/-- What patch returns: the new image, the page's offset, the new checksum (R234). -/
structure Patched where
  image : List Byte
  page : Nat
  sum : Nat
  deriving DecidableEq, Repr

/-- patch (R234): locate the page, pack the record into it, store the checksum of the new body in its footer. The sequence
number is reused (R236). -/
def patch (img : List Byte) (sid ver : Nat) (uri : List Byte) (off : Nat) : Except CmdError Patched :=
  if img.length % Config.pageBytes ≠ 0 then .error .badImageLength
  else if Config.siMaxOffset < off then .error .recordOutOfBounds
  else
    match locate img sid ver with
    | .error e => .error e
    | .ok o =>
      match siPack (slice img o Config.pageBytes) uri off with
      | .error e => .error e
      | .ok pg =>
        let c := checksum (pg.take Config.pageBodyBytes)
        .ok { image := splice img o (splice pg 2042 (put16 c)), page := o, sum := c }

/-- The page-length check of SI_UNPACK and SI_PACK (R231, R233, D27), made before the record offset is looked at. -/
def onePage (len : Nat) (r : Except CmdError (List Byte)) : Except CmdError (List Byte) :=
  if len = Config.pageBytes then r else .error .badPageLength

/-- SI_UNPACK (R231). -/
def execSiUnpack (s : State) : Host.Outcome State Fault Refusal :=
  if inputsInside s (inputRegions s .siUnpack) then
    .next (finish s (inputRegions s .siUnpack)
      (outputOnly (onePage s.srcLen.toNat (siUnpack (s.region (srcRegion s)) s.recOffset.toNat))))
  else .next (errorEnd s .regionError)

/-- SI_PACK (R233). -/
def execSiPack (s : State) : Host.Outcome State Fault Refusal :=
  if inputsInside s (inputRegions s .siPack) then
    .next (finish s (inputRegions s .siPack)
      (outputOnly (onePage s.srcLen.toNat
        (siPack (s.region (srcRegion s)) (s.region (recRegion s)) s.recOffset.toNat))))
  else .next (errorEnd s .regionError)

/-- PATCH (R235). -/
def execPatch (s : State) : Host.Outcome State Fault Refusal :=
  if inputsInside s (inputRegions s .patch) then
    .next (finish s (inputRegions s .patch)
      (match patch (s.region (srcRegion s)) (slotId s) (slotVersion s) (s.region (recRegion s)) s.recOffset.toNat with
        | .error e => .error e
        | .ok r => .ok { out := some r.image, page := some r.page, sum := some r.sum }))
  else .next (errorEnd s .regionError)

/-! What the record's bytes mean, for the reader: no command looks at it (R108, R109). -/

/-- Waveform level `k` of a record, 0 .. 15: the low nibble of byte k/2 for even k, the high one for odd k (R108). -/
def waveformLevel (r : List Byte) (k : Nat) : Nat := byteOf r (k / 2) / 16 ^ (k % 2) % 16

/-- "loop enabled", bit 0 of the loop byte (R109). -/
def loopEnabled (r : List Byte) : Bool := (r.getD 1069 0).getLsbD 0

/-- The loop-mode bit, bit 1 of the loop byte; which value means which mode is not given (R109, 93 I4). -/
def loopModeBit (r : List Byte) : Bool := (r.getD 1069 0).getLsbD 1

end Sys2Proof.Machine
end

