-- ==== Sys2Proof/Machine/Dispatch.lean ====
section
/-! DEFINITION. One arm per command: the completion step of R48 for the command CMDL names. -/

namespace Sys2Proof.Machine

def exec (i : Instr) (s : State) : Host.Outcome State Fault Refusal :=
  match i with
  | .uf2Decode => Sys2Proof.Machine.execUf2Decode s
  | .uf2Encode => Sys2Proof.Machine.execUf2Encode s
  | .checksum => Sys2Proof.Machine.execChecksum s
  | .locateSlot => Sys2Proof.Machine.execLocateSlot s
  | .siUnpack => Sys2Proof.Machine.execSiUnpack s
  | .siPack => Sys2Proof.Machine.execSiPack s
  | .patch => Sys2Proof.Machine.execPatch s

end Sys2Proof.Machine
end

