-- ==== Sys2Proof/Machine/HostPort.lean ====
section
/-! DEFINITION. The host's accesses: the register window (R61), the BUF host port (R62), and the routing of a host address
to one of them (R60). -/

namespace Sys2Proof.Machine

def Access.addr : Access → Nat
  | .read a _ => a
  | .write a _ _ => a

def Access.width : Access → Nat
  | .read _ n => n
  | .write _ n _ => n

/-- An access that is ignored: a read returns 0, a write does nothing, HVIOL is set (R29, R61, R62). -/
def refuseAccess (s : State) : Access → State
  | .read _ _ => reply (violate s) 0
  | .write _ _ _ => violate s

/-- A 32-bit read at a window offset: no side effect, allowed at any time (R27, R68); a reserved offset reads 0 (R45). -/
def regRead (s : State) (off : Nat) : Word := ((regAt? off).map (readReg s)).getD 0

/-- A 32-bit write at a window offset: a violation while BUSY = 1 (R29 a), ignored at a reserved offset (R45). -/
def regWrite (s : State) (off : Nat) (v : Word) : State :=
  if s.status.busy then violate s else ((regAt? off).map (writeReg s v)).getD s

/-- An access that reaches the register window: only naturally aligned 32-bit accesses are admitted (R61). -/
def regAccess (s : State) (a : Access) : State :=
  if a.width = 4 ∧ a.addr % 4 = 0 then
    match a with
    | .read addr _ => reply s (regRead s (addr - s.platform.blockBase))
    | .write addr _ v => regWrite s (addr - s.platform.blockBase) v
  else refuseAccess s a

/-- An access of the BUF host port at a BUF address (R62). -/
def bufAccess (s : State) (a : Access) : State :=
  if s.status.busy ∨ ¬(a.width = 1 ∨ a.width = 2 ∨ a.width = 4) ∨ s.platform.bufBytes < a.addr + a.width then
    refuseAccess s a
  else
    match a with
    | .read addr n => reply s (s.memRead addr n)
    | .write addr n v => s.memWrite addr n v

/-- An access shares a byte with the window of `size` bytes at `base`; an access of width 0 counts as its first byte
(entry 9). -/
def touches (base size : Nat) (a : Access) : Bool :=
  decide (a.addr < base + size ∧ base < a.addr + max a.width 1)

/-- The same access with its address counted from `base`. -/
def Access.fromBase (base : Nat) : Access → Access
  | .read a n => .read (a - base) n
  | .write a n v => .write (a - base) n v

/-- A transaction at a host address (R60, R112). It belongs to the register window if it reaches it, else to BUF if it
reaches that; one that starts below BUF and reaches into it has no BUF address and is refused; one that reaches neither
window is not the block's, which neither changes nor answers (DESIGN CHOICE, entry 9). -/
def busAccess (s : State) (a : Access) : State :=
  if touches s.platform.blockBase Config.windowBytes a then regAccess s a
  else if touches s.platform.bufBase s.platform.bufBytes a then
    if a.addr < s.platform.bufBase then refuseAccess s a else bufAccess s (a.fromBase s.platform.bufBase)
  else s

end Sys2Proof.Machine
end

