-- ==== Sys2Proof/Machine/Turn.lean ====
section
/-! DEFINITION. One step of the machine: the next entry of the single order of R71, a host action or the engine's
completion step (R20, R48). -/

namespace Sys2Proof.Machine

/-- The engine's completion step (R48): the command CMDL names, or the error end of an illegal word (R92). -/
def engineStep (s : State) : Host.Outcome State Fault Refusal :=
  match decodeWord s.cmdl with
  | .ok i => exec i s
  | .error _ => .next (errorEnd s .illegalCommand)

/-- The engine's turn: its step is enabled iff BUSY = 1 (R48); otherwise nothing happens. -/
def engineTurn (s : State) : Host.Outcome State Fault Refusal :=
  if s.status.busy then engineStep s else .next s

/-- What one entry of the host's list does, `s` being the machine with that entry taken off. A `poll` that finds BUSY = 1
reads again until the engine has completed, which R333 says happens: the engine moves and the poll stays at the head
(entry 3). -/
def hostTurn (s : State) : HostEvent → Host.Outcome State Fault Refusal
  | .bus a => .next (busAccess s a)
  | .bufPort a => .next (bufAccess s a)
  | .poll =>
    if s.status.busy then engineStep { s with inbox := .poll :: s.inbox } else .next (reply s s.status.toWord)
  | .reset => .next (resetBlock s)
  | .engineTurn => engineTurn s

/-- One step: the head of the host's list, or the engine's turn when the host has nothing to do (R20, R71; entries 1, 2). -/
def turn (s : State) : Host.Outcome State Fault Refusal :=
  match s.inbox with
  | [] => engineTurn s
  | e :: rest => hostTurn { s with inbox := rest } e

/-- The machine with command word `w` launched as a host write of CMD launches it (R47) and the host silent, so that the
engine's completion step of that command is the next step (entry 12). -/
def placeCommand (s : State) (w : Word) : State := { launch s w with inbox := [] }

end Sys2Proof.Machine
end

