-- ==== Sys2Proof/Machine/Step.lean ====
section
/-! DEFINITION. The step function, and the placing of a command where the next step runs it. -/

namespace Sys2Proof.Machine

/-- One step of the machine (R71). -/
def step (s : State) : Host.Outcome State Fault Refusal := turn s

/-- `s` with the command whose bits are `w` launched (R47), so that the next step runs it (entry 12). -/
def State.withFetchWord (s : State) (nbits w : Nat) : State := placeCommand s (BitVec.ofNat 32 (w % 2 ^ nbits))

end Sys2Proof.Machine
end

