-- ==== Sys2Proof/Machine/HostSyntax.lean ====
section
/-! DEFINITION. The host notation of R112 and its pseudo-instructions (R113), as the transactions they stand for. -/

namespace Sys2Proof.Machine

/-- One line of a host program (R112, R113). -/
inductive HostLine where
  /-- `wr REG, v`. -/
  | wr (r : RegName) (v : Word)
  /-- `rd REG`. -/
  | rd (r : RegName)
  /-- `sb a, v`. -/
  | sb (a : Nat) (v : Word)
  /-- `sh a, v`. -/
  | sh (a : Nat) (v : Word)
  /-- `sw a, v`. -/
  | sw (a : Nat) (v : Word)
  /-- `lb a`. -/
  | lb (a : Nat)
  /-- `lh a`. -/
  | lh (a : Nat)
  /-- `lw a`. -/
  | lw (a : Nat)
  /-- `cmd OP`. -/
  | cmd (i : Instr)
  /-- `poll`. -/
  | poll
  /-- `run OP`. -/
  | run (i : Instr)
  /-- `fill a, [b0, b1, …]`. -/
  | fill (a : Nat) (bs : List Byte)
  /-- `setslot s, v`. -/
  | setslot (s v : Byte)
  deriving DecidableEq, Repr

/-- The transaction of a register write (R112). -/
def busWrite (p : Config.Platform) (r : RegName) (v : Word) : HostEvent := .bus (.write (p.blockBase + r.offset) 4 v)

/-- The byte writes of `fill` (R113). -/
def fillEvents (p : Config.Platform) : Nat → List Byte → List HostEvent
  | _, [] => []
  | a, b :: bs => .bus (.write (p.bufBase + a) 1 (b.setWidth 32)) :: fillEvents p (a + 1) bs

/-- The transactions a line stands for (R112, R113). -/
def HostLine.events (p : Config.Platform) : HostLine → List HostEvent
  | .wr r v => [busWrite p r v]
  | .rd r => [.bus (.read (p.blockBase + r.offset) 4)]
  | .sb a v => [.bus (.write (p.bufBase + a) 1 v)]
  | .sh a v => [.bus (.write (p.bufBase + a) 2 v)]
  | .sw a v => [.bus (.write (p.bufBase + a) 4 v)]
  | .lb a => [.bus (.read (p.bufBase + a) 1)]
  | .lh a => [.bus (.read (p.bufBase + a) 2)]
  | .lw a => [.bus (.read (p.bufBase + a) 4)]
  | .cmd i => [busWrite p .cmd (encode i)]
  | .poll => [.poll]
  | .run i => [busWrite p .cmd (encode i), .poll]
  | .fill a bs => fillEvents p a bs
  | .setslot sid ver => [busWrite p .slotSel ((ver.setWidth 32) <<< 8 ||| sid.setWidth 32)]

/-- The machine with a host program still to be run by its host. -/
def State.withHostProgram (s : State) (lines : List HostLine) : State :=
  { s with inbox := s.inbox ++ lines.flatMap (HostLine.events s.platform) }

end Sys2Proof.Machine
end

