-- ==== Sys2Proof/Safety.lean ====
section
/-! DEFINITION. What a good state and a clean run are, in the terms claims use: the invariant of the block, the end of a
host program (R334), and the shape of a command's effect (R48, R284, R285). -/

namespace Sys2Proof.Machine

/-- The values ERRCODE.CODE may hold: NONE and the codes the block writes, never 2 and never 13 .. 255 (R281, R296, 93 I7). -/
def writtenCodes : List (BitVec 8) := [0, 1, 3, 4, 5, 6, 7, 8, 9, 10, 11, 12]

/-- What holds of every state of the block that a run from a well-formed platform's reset can reach. -/
structure State.Inv (s : State) : Prop where
  /-- The platform meets R5. -/
  platform : s.platform.Wf
  /-- BUF's cells are in canonical form (entry 6). -/
  canonical : Memory.wf s.buf = true
  /-- Nothing outside 0 .. BUF_BYTES-1 was ever written (R10, R24). -/
  bounded : ∀ c ∈ s.buf, c.1 < s.platform.bufBytes
  /-- A command in flight is not done (R47). -/
  pending : s.status.busy = true → s.status.done = false
  /-- Until a command is done, every result is cleared (R46, R47, R72). -/
  cleared : s.status.done = false →
    s.status.err = false ∧ s.status.found = false ∧ s.errcode = 0 ∧ s.dstLen = 0 ∧ s.pageOffset = 0 ∧ s.checksum = 0
  /-- ERRCODE holds a code the block writes (R281, R296). -/
  written : s.errcode ∈ writtenCodes
  /-- ERR = 1 exactly when ERRCODE holds an error's code (R31, R33). -/
  errIff : s.status.err = true ↔ s.errcode ≠ 0
  /-- After an error every result register is 0 and FOUND is 0 (R32, R37, R43, R44, R284). -/
  failed : s.status.err = true →
    s.status.found = false ∧ s.dstLen = 0 ∧ s.pageOffset = 0 ∧ s.checksum = 0
  /-- PAGE_OFFSET is 0 unless FOUND says that it is a page's offset (R43, R330). -/
  notFound : s.status.found = false → s.pageOffset = 0
  /-- PAGE_OFFSET is the offset of a page (R100, R204). -/
  pageAligned : s.pageOffset.toNat % Config.pageBytes = 0

/-- The end of a host program that a claim may be about: nothing pending, nothing running, no host violation (R334). -/
abbrev State.CleanEnd (s : State) : Prop :=
  s.inbox = [] ∧ s.status.busy = false ∧ s.status.hviol = false

/-- The host's entries before the first one at which the engine of a busy block moves, a turn of its own or a poll (entries
1 and 3). -/
def State.beforeEngine (s : State) : List HostEvent :=
  s.inbox.takeWhile fun e => decide (e ≠ .engineTurn ∧ e ≠ .poll)

/-- `s` after a command that ended in error `code` (R284): DONE and ERR set, BUSY cleared, ERRCODE written, all else as it
was. -/
def State.failedWith (s : State) (code : BitVec 8) : State :=
  { s with
    status := { busy := false, done := true, err := true, found := s.status.found, hviol := s.status.hviol }
    errcode := code }

/-- `t` is `s` after a command that succeeded (R285), its output bytes in BUF left aside: DST_LEN, PAGE_OFFSET, CHECKSUM and
FOUND hold the given values, DONE is set, BUSY, ERR and ERRCODE are 0, all else is as it was. -/
def State.succeededWith (s : State) (buf : Memory) (dstLen pageOffset : Word) (checksum : BitVec 16) (found : Bool) : State :=
  { s with
    buf := buf
    dstLen := dstLen
    pageOffset := pageOffset
    checksum := checksum
    status := { busy := false, done := true, err := false, found := found, hviol := s.status.hviol }
    errcode := 0 }

/-- BUF of `t` is BUF of `s` with `out` written from `d`: byte `d + k` is `out[k]`, every other byte is as it was. -/
def WroteExactly (s t : State) (d : Nat) (out : List Byte) : Prop :=
  ∀ a, t.byteAt a = if d ≤ a ∧ a < d + out.length then out.getD (a - d) 0 else s.byteAt a

/-- Everything a command never writes (R25 "written by the engine? no", R22, R29): the RW registers, CMDL, HVIOL, the platform
and the host's side. -/
def SameButResults (s t : State) : Prop :=
  t.platform = s.platform ∧ t.cmdl = s.cmdl ∧ t.status.hviol = s.status.hviol ∧ t.srcAddr = s.srcAddr ∧
    t.srcLen = s.srcLen ∧ t.dstAddr = s.dstAddr ∧ t.recAddr = s.recAddr ∧ t.recOffset = s.recOffset ∧
    t.baseAddr = s.baseAddr ∧ t.familyId = s.familyId ∧ t.slotSel = s.slotSel ∧ t.epoch = s.epoch ∧
    t.inbox = s.inbox ∧ t.replies = s.replies

/-! BUF and the operands as the claims speak of them: byte by byte, in the formulas of R9 and R180. -/

/-- The sum of `f 0 … f (n-1)`. -/
def sumBelow (f : Nat → Nat) : Nat → Nat
  | 0 => 0
  | n + 1 => sumBelow f n + f n

/-- The little-endian 32-bit number at BUF address `a` (R9). -/
def State.le32At (s : State) (a : Nat) : Nat :=
  (s.byteAt a).toNat + 2 ^ 8 * (s.byteAt (a + 1)).toNat + 2 ^ 16 * (s.byteAt (a + 2)).toNat +
    2 ^ 24 * (s.byteAt (a + 3)).toNat

/-- The closed form of the checksum of the `n` bytes `f 0 … f (n-1)` (R180). -/
def hashOf (f : Nat → Byte) (n : Nat) : Nat :=
  (123 * 23 ^ n + sumBelow (fun k => (f k).toNat * 23 ^ (n - 1 - k)) n) % 65536

/-- x[SRC_ADDR], x[SRC_LEN], x[DST_ADDR], x[REC_ADDR], x[REC_OFFSET] as numbers (R93). -/
abbrev State.src (s : State) : Nat := s.srcAddr.toNat
abbrev State.srcN (s : State) : Nat := s.srcLen.toNat
abbrev State.dst (s : State) : Nat := s.dstAddr.toNat
abbrev State.uri (s : State) : Nat := s.recAddr.toNat
abbrev State.off (s : State) : Nat := s.recOffset.toNat

/-- Region (a, n) is inside BUF (R64). -/
abbrev State.InBuf (s : State) (a n : Nat) : Prop := a + n ≤ s.platform.bufBytes

/-- Regions (a, n) and (b, m) overlap (R65). -/
abbrev Meets (a n b m : Nat) : Prop := 0 < n ∧ 0 < m ∧ a < b + m ∧ b < a + n

/-- An output of `n` bytes at DST_ADDR is inside BUF and clear of the SRC region. -/
abbrev State.OutClearOfSrc (s : State) (n : Nat) : Prop := s.InBuf s.dst n ∧ ¬ Meets s.dst n s.src s.srcN

/-- … and clear of the URI region as well. -/
abbrev State.OutClearOfInputs (s : State) (n : Nat) : Prop :=
  s.OutClearOfSrc n ∧ ¬ Meets s.dst n s.uri 1100

/-- Target address and payload size of UF2 block `j` of the SRC region (R95), and where its payload goes in the output. -/
def State.blockTgt (s : State) (j : Nat) : Nat := s.le32At (s.src + 512 * j + 12)
def State.blockSz (s : State) (j : Nat) : Nat := s.le32At (s.src + 512 * j + 16)
def State.blockAt (s : State) (j : Nat) : Nat := sumBelow s.blockSz j

/-- Block `j` follows its predecessor (R141); block 0 has none. -/
abbrev State.Contiguous (s : State) (j : Nat) : Prop :=
  j = 0 ∨ s.blockTgt j = s.blockTgt (j - 1) + s.blockSz (j - 1)

/-- Block `j` passes both checks of decode (R140). -/
abbrev State.GoodBlock (s : State) (j : Nat) : Prop := s.Contiguous j ∧ s.blockSz j ≤ 476

/-- Page `p` of the SRC region is a candidate for SLOT_SEL (R201). -/
abbrev State.PageMatches (s : State) (p : Nat) : Prop :=
  (s.byteAt (s.src + 2048 * p + 2040)).toNat = s.slotSel.toNat % 256 ∧
    (s.byteAt (s.src + 2048 * p + 2041)).toNat = s.slotSel.toNat / 256

/-- Sequence number of page `p` of the SRC region (R102). -/
def State.pageSeq (s : State) (p : Nat) : Nat := s.le32At (s.src + 2048 * p + 2044)

/-- Page `p` is the one the resolver picks: a candidate with a sequence number above 0, none greater among the candidates,
and the first of the greatest (R202). -/
abbrev State.Resolves (s : State) (p : Nat) : Prop :=
  p < s.srcN / 2048 ∧ s.PageMatches p ∧ 0 < s.pageSeq p ∧
    (∀ q < s.srcN / 2048, s.PageMatches q → s.pageSeq q ≤ s.pageSeq p) ∧
    ∀ q < p, s.PageMatches q → s.pageSeq q < s.pageSeq p

/-- No page resolves: every candidate has sequence number 0 (R203). -/
abbrev State.NoneResolves (s : State) : Prop := ∀ q < s.srcN / 2048, s.PageMatches q → s.pageSeq q = 0

/-! When each command completes with its own effect, on the state and the operands alone. -/

abbrev State.Uf2DecodeReady (s : State) : Prop :=
  s.InBuf s.src s.srcN ∧ s.srcN % 512 = 0 ∧ (∀ j < s.srcN / 512, s.GoodBlock j) ∧
    s.OutClearOfSrc (s.blockAt (s.srcN / 512))

abbrev State.Uf2EncodeReady (s : State) : Prop :=
  s.InBuf s.src s.srcN ∧ s.srcN % 256 = 0 ∧
    (s.srcN = 0 ∨ s.baseAddr.toNat + 256 * (s.srcN / 256 - 1) ≤ 0xFFFFFFFF) ∧ s.OutClearOfSrc (2 * s.srcN)

abbrev State.LocateReady (s : State) (p : Nat) : Prop :=
  s.InBuf s.src s.srcN ∧ s.srcN % 2048 = 0 ∧ s.Resolves p

abbrev State.SiUnpackReady (s : State) : Prop :=
  s.InBuf s.src s.srcN ∧ s.srcN = 2048 ∧ s.off ≤ 968 ∧ s.OutClearOfSrc 1100

abbrev State.SiPackReady (s : State) : Prop :=
  s.InBuf s.src s.srcN ∧ s.InBuf s.uri 1100 ∧ s.srcN = 2048 ∧ s.off ≤ 968 ∧ s.OutClearOfInputs 2048

abbrev State.PatchReady (s : State) (p : Nat) : Prop :=
  s.InBuf s.src s.srcN ∧ s.InBuf s.uri 1100 ∧ s.srcN % 2048 = 0 ∧ s.off ≤ 968 ∧ s.Resolves p ∧
    s.OutClearOfInputs s.srcN

/-- The registers each command reads (the second column of R49's table). -/
def readsRegister : Instr → RegName → Bool
  | .uf2Decode, r => r = .srcAddr ∨ r = .srcLen ∨ r = .dstAddr
  | .uf2Encode, r => r = .srcAddr ∨ r = .srcLen ∨ r = .dstAddr ∨ r = .baseAddr ∨ r = .familyId
  | .checksum, r => r = .srcAddr ∨ r = .srcLen
  | .locateSlot, r => r = .srcAddr ∨ r = .srcLen ∨ r = .slotSel
  | .siUnpack, r => r = .srcAddr ∨ r = .srcLen ∨ r = .dstAddr ∨ r = .recOffset
  | .siPack, r => r = .srcAddr ∨ r = .srcLen ∨ r = .dstAddr ∨ r = .recAddr ∨ r = .recOffset
  | .patch, r =>
    r = .srcAddr ∨ r = .srcLen ∨ r = .dstAddr ∨ r = .recAddr ∨ r = .recOffset ∨ r = .slotSel

/-- The BUF byte at `a` is in a region the command reads (the third column of R49's table). -/
def readsByte (s : State) : Instr → Nat → Prop
  | .uf2Decode, a | .uf2Encode, a | .checksum, a | .locateSlot, a => s.src ≤ a ∧ a < s.src + s.srcN
  | .siUnpack, a => s.src ≤ a ∧ a < s.src + 2048
  | .siPack, a => (s.src ≤ a ∧ a < s.src + 2048) ∨ (s.uri ≤ a ∧ a < s.uri + 1100)
  | .patch, a => (s.src ≤ a ∧ a < s.src + s.srcN) ∨ (s.uri ≤ a ∧ a < s.uri + 1100)

/-- The error codes each command can end in (R282). -/
def commandCodes : Instr → List (BitVec 8)
  | .uf2Decode => [11, 4, 1, 6]
  | .uf2Encode => [11, 5, 7]
  | .checksum => [11]
  | .locateSlot => [11, 8, 3]
  | .siUnpack => [11, 9, 10]
  | .siPack => [11, 9, 10]
  | .patch => [11, 8, 10, 3]

end Sys2Proof.Machine
end

