-- ==== Sys2Proof/Certificates/Slice0/Obligations.lean ====
section
/-! DEFINITION. The statements for the provers. Each docstring names the rule of spec/ it formalises. -/

open Sys2Proof Sys2Proof.Machine

/-! ## Command words -/

/-- R91 on words written out from the table, and three of R92's illegal words. -/
def Obligations.CommandWordsDecode : Prop :=
  decodeWord 0x00000001#32 = .ok .uf2Decode ∧ decodeWord 0x00000002#32 = .ok .uf2Encode ∧
    decodeWord 0x00000003#32 = .ok .checksum ∧ decodeWord 0x00000004#32 = .ok .locateSlot ∧
    decodeWord 0x00000005#32 = .ok .siUnpack ∧ decodeWord 0x00000006#32 = .ok .siPack ∧
    decodeWord 0x00000007#32 = .ok .patch ∧ decodeWord 0x00000000#32 = .error (.reservedOpcode 0) ∧
    decodeWord 0x00000008#32 = .error (.reservedOpcode 8) ∧
    decodeWord 0x80000003#32 = .error (.reservedBits 0x80000003#32)

/-- R91: a word selects a command iff its bits 31:8 are 0 and its bits 7:0 are the command's opcode. -/
def Obligations.OpcodeMapIsExact : Prop :=
  ∀ w : Word,
    (decodeWord w = .ok .uf2Decode ↔ w.extractLsb' 8 24 = 0 ∧ w.extractLsb' 0 8 = 0x01#8) ∧
    (decodeWord w = .ok .uf2Encode ↔ w.extractLsb' 8 24 = 0 ∧ w.extractLsb' 0 8 = 0x02#8) ∧
    (decodeWord w = .ok .checksum ↔ w.extractLsb' 8 24 = 0 ∧ w.extractLsb' 0 8 = 0x03#8) ∧
    (decodeWord w = .ok .locateSlot ↔ w.extractLsb' 8 24 = 0 ∧ w.extractLsb' 0 8 = 0x04#8) ∧
    (decodeWord w = .ok .siUnpack ↔ w.extractLsb' 8 24 = 0 ∧ w.extractLsb' 0 8 = 0x05#8) ∧
    (decodeWord w = .ok .siPack ↔ w.extractLsb' 8 24 = 0 ∧ w.extractLsb' 0 8 = 0x06#8) ∧
    (decodeWord w = .ok .patch ↔ w.extractLsb' 8 24 = 0 ∧ w.extractLsb' 0 8 = 0x07#8)

/-- R90, R91: decoding the bytes of any command gives the command and the bytes that follow, and whatever bytes decode to a
command begin with exactly that command's bytes. -/
def Obligations.CommandBytesRoundTrip : Prop :=
  (∀ (i : Instr) (rest : List Byte), decodeBytes (encodeBytes i ++ rest) = .ok (i, rest)) ∧
    ∀ (bs rest : List Byte) (i : Instr), decodeBytes bs = .ok (i, rest) → bs = encodeBytes i ++ rest

/-- R92: a word with a bit of 31:8 set, or with bits 7:0 outside 1 .. 7, names no command; it is launched like any other, and
its completion reads no operand and writes only the error end with ILLEGAL_COMMAND. -/
def Obligations.IllegalWordEndsInError : Prop :=
  ∀ (s : State) (w : Word),
    (w.extractLsb' 8 24 ≠ 0 ∨ (w.extractLsb' 0 8).toNat = 0 ∨ 8 ≤ (w.extractLsb' 0 8).toNat) →
      (∀ i, decodeWord w ≠ .ok i) ∧
      (s.status.busy = false → regWrite s 0x00 w =
        { s with
          cmdl := w
          status := { busy := true, done := false, err := false, found := false, hviol := s.status.hviol }
          errcode := 0, dstLen := 0, pageOffset := 0, checksum := 0 }) ∧
      (s.cmdl = w → engineStep s = .next (s.failedWith 12))

/-! ## The step -/

/-- R48: when the engine moves while a command is launched, the step is the completion of the command CMDL decodes to. The
engine moves when the host has nothing to do, at its place in the host's order, or while the host polls (entries 1 to 3). -/
def Obligations.StepRunsDecodedCommand : Prop :=
  ∀ (s : State) (i : Instr), s.status.busy = true → decodeWord s.cmdl = .ok i →
    (s.inbox = [] → step s = exec i s) ∧
    (∀ rest, s.inbox = .engineTurn :: rest → step s = exec i { s with inbox := rest }) ∧
    (∀ rest, s.inbox = .poll :: rest → step s = exec i s)

/-- R48 "enabled iff STATUS.BUSY = 1": an idle engine does nothing (entry 2). -/
def Obligations.IdleEngineDoesNothing : Prop :=
  ∀ s : State, s.status.busy = false →
    (s.inbox = [] → step s = .next s) ∧
    (∀ rest, s.inbox = .engineTurn :: rest → step s = .next { s with inbox := rest })

/-- R47: a host write of `w` to CMD (window offset 0) while BUSY = 0. -/
def Obligations.LaunchEffect : Prop :=
  ∀ (s : State) (w : Word), s.status.busy = false →
    regWrite s 0x00 w =
      { s with
        cmdl := w
        status := { busy := true, done := false, err := false, found := false, hviol := s.status.hviol }
        errcode := 0
        dstLen := 0
        pageOffset := 0
        checksum := 0 }

/-- R113: a poll of an idle block reads STATUS once, with BUSY = 0, and is over (the form of a host's action and of its
answer is the model's, entries 1, 3 and 11). -/
def Obligations.PollEndsWhenIdle : Prop :=
  ∀ (s : State) (rest : List HostEvent), s.status.busy = false → s.inbox = .poll :: rest →
    step s = .next { s with inbox := rest, replies := s.replies ++ [s.status.toWord] } ∧
      s.status.toWord.getLsbD 0 = false

/-- R333: a launched command completes unless a reset comes before the engine's step, whatever the host does meanwhile and
after: the step after the entries that stand before the first engine turn or poll is the completion (the host's finite list
and its engine turns are the model's form of R333's weak fairness, entries 1 to 3). -/
def Obligations.LaunchedCommandCompletes : Prop :=
  ∀ s : State, s.status.busy = true → .reset ∉ s.beforeEngine →
    ∃ t, core.run (s.beforeEngine.length + 1) s = .next t ∧ t.status.busy = false ∧ t.status.done = true

/-! ## The host's accesses -/

/-- R61: aligned 32-bit accesses of the window reach its sixteen words; any other access that begins in the window is ignored,
answers 0 and sets HVIOL (the form of a host's action and of its answer is the model's, entries 1, 9 and 11). -/
def Obligations.RegisterWindowAccess : Prop :=
  ∀ (s : State) (rest : List HostEvent), s.platform.Wf →
    (∀ k < 16, s.inbox = .bus (.read (s.platform.blockBase + 4 * k) 4) :: rest →
      step s = .next { s with inbox := rest, replies := s.replies ++ [regRead s (4 * k)] }) ∧
    (∀ k < 16, ∀ v, s.inbox = .bus (.write (s.platform.blockBase + 4 * k) 4 v) :: rest →
      step s = .next (regWrite { s with inbox := rest } (4 * k) v)) ∧
    (∀ addr n, s.platform.blockBase ≤ addr → addr < s.platform.blockBase + 64 → ¬(n = 4 ∧ addr % 4 = 0) →
      (s.inbox = .bus (.read addr n) :: rest →
        step s = .next
          { s with inbox := rest, status := { s.status with hviol := true }, replies := s.replies ++ [0] }) ∧
      (∀ v, s.inbox = .bus (.write addr n v) :: rest →
        step s = .next { s with inbox := rest, status := { s.status with hviol := true } }))

/-- R25, R26, R27, R33, R42, R44, R45: what each word of the register window reads as. -/
def Obligations.RegisterWindowReads : Prop :=
  ∀ s : State,
    regRead s 0x00 = 0 ∧
    ((regRead s 0x04).getLsbD 0 = s.status.busy ∧ (regRead s 0x04).getLsbD 1 = s.status.done ∧
      (regRead s 0x04).getLsbD 2 = s.status.err ∧ (regRead s 0x04).getLsbD 3 = s.status.found ∧
      (regRead s 0x04).getLsbD 4 = s.status.hviol ∧ ∀ k, 5 ≤ k → (regRead s 0x04).getLsbD k = false) ∧
    regRead s 0x08 = s.errcode.zeroExtend 32 ∧
    regRead s 0x0C = s.srcAddr ∧ regRead s 0x10 = s.srcLen ∧ regRead s 0x14 = s.dstAddr ∧
    regRead s 0x18 = s.dstLen ∧ regRead s 0x1C = s.recAddr ∧ regRead s 0x20 = s.recOffset ∧
    regRead s 0x24 = s.baseAddr ∧ regRead s 0x28 = s.familyId ∧ regRead s 0x2C = s.slotSel.zeroExtend 32 ∧
    regRead s 0x30 = s.pageOffset ∧ regRead s 0x34 = s.checksum.zeroExtend 32 ∧
    regRead s 0x38 = 0 ∧ regRead s 0x3C = 0

/-- R34 to R36, R38 to R42, R45: while idle, an RW register reads back as written (SLOT_SEL without bits 31:16) and no other
register changes; a write of a read-only register or of a reserved offset does nothing. -/
def Obligations.RegisterWindowWrites : Prop :=
  ∀ (s : State) (v : Word), s.status.busy = false →
    regWrite s 0x0C v = { s with srcAddr := v } ∧ regWrite s 0x10 v = { s with srcLen := v } ∧
    regWrite s 0x14 v = { s with dstAddr := v } ∧ regWrite s 0x1C v = { s with recAddr := v } ∧
    regWrite s 0x20 v = { s with recOffset := v } ∧ regWrite s 0x24 v = { s with baseAddr := v } ∧
    regWrite s 0x28 v = { s with familyId := v } ∧
    (regWrite s 0x2C v = { s with slotSel := v.extractLsb' 0 16 } ∧
      regRead (regWrite s 0x2C v) 0x2C = v &&& 0x0000FFFF#32) ∧
    ∀ off ∈ [0x04, 0x08, 0x18, 0x30, 0x34, 0x38, 0x3C], regWrite s off v = s

/-- R62: the BUF host port (the form of a host's action and of its answer is the model's, entries 1, 10 and 11). -/
def Obligations.BufHostPort : Prop :=
  ∀ (s : State) (rest : List HostEvent) (a n : Nat) (v : Word),
    (s.status.busy = false → (n = 1 ∨ n = 2 ∨ n = 4) → a + n ≤ s.platform.bufBytes →
      (s.inbox = .bufPort (.read a n) :: rest →
        step s = .next
          { s with
            inbox := rest
            replies := s.replies ++ [BitVec.ofNat 32 (sumBelow (fun k => (s.byteAt (a + k)).toNat * 256 ^ k) n)] }) ∧
      (s.inbox = .bufPort (.write a n v) :: rest →
        ∃ t, step s = .next t ∧ t = { s with inbox := rest, buf := t.buf } ∧
          ∀ x, t.byteAt x = if a ≤ x ∧ x < a + n then (v >>> (8 * (x - a))).setWidth 8 else s.byteAt x)) ∧
    (s.status.busy = true ∨ ¬(n = 1 ∨ n = 2 ∨ n = 4) ∨ s.platform.bufBytes < a + n →
      (s.inbox = .bufPort (.read a n) :: rest →
        step s = .next
          { s with inbox := rest, status := { s.status with hviol := true }, replies := s.replies ++ [0] }) ∧
      (s.inbox = .bufPort (.write a n v) :: rest →
        step s = .next { s with inbox := rest, status := { s.status with hviol := true } }))

/-- R60: BUF address a is host address BUF_BASE + a: a transaction that begins there is the BUF port's access at a (one that
runs from BUF into the register window is entry 9's). -/
def Obligations.BufWindowRouting : Prop :=
  ∀ (s : State) (rest : List HostEvent) (a n : Nat) (v : Word), s.platform.Wf → a < s.platform.bufBytes →
    step { s with inbox := .bus (.read (s.platform.bufBase + a) n) :: rest } =
        step { s with inbox := .bufPort (.read a n) :: rest } ∧
      step { s with inbox := .bus (.write (s.platform.bufBase + a) n v) :: rest } =
        step { s with inbox := .bufPort (.write a n v) :: rest }

/-- R29 (a), (b), R325: while BUSY = 1 a register write and any BUF access only set HVIOL (a read returns 0), and a register
read stays allowed and has no side effect (the answer's form is the model's, entry 11). -/
def Obligations.BusyWindow : Prop :=
  ∀ (s : State) (off a n : Nat) (v : Word), s.status.busy = true →
    regWrite s off v = { s with status := { s.status with hviol := true } } ∧
    bufAccess s (.write a n v) = { s with status := { s.status with hviol := true } } ∧
    bufAccess s (.read a n) =
      { s with status := { s.status with hviol := true }, replies := s.replies ++ [0] } ∧
    (s.platform.Wf → ∀ k < 16, busAccess s (.read (s.platform.blockBase + 4 * k) 4) =
      { s with replies := s.replies ++ [regRead s (4 * k)] })

/-- R288: an access that sets HVIOL does nothing else to the block, and a read that sets it is answered 0; HVIOL stays 1 until
reset (the host's list and answers are the model's, entries 1 and 11). -/
def Obligations.HostViolationOnlySetsHviol : Prop :=
  (∀ (s t : State) (e : HostEvent) (rest : List HostEvent), s.inbox = e :: rest → s.status.hviol = false →
    step s = .next t → t.status.hviol = true →
      t = { s with inbox := rest, replies := t.replies, status := { s.status with hviol := true } } ∧
        (t.replies = s.replies ∨ t.replies = s.replies ++ [0])) ∧
  ∀ s t : State, s.status.hviol = true → step s = .next t →
    t.status.hviol = true ∨ ∃ rest, s.inbox = .reset :: rest

/-- R46, R320, R321, R322: the reset input, in any state. Every register reads 0, CMDL is 0, no command is in flight, every
BUF byte is the free value of a new draw; the platform and the host's side stay (entry 22, the model's choice). -/
def Obligations.ResetEvent : Prop :=
  ∀ (s : State) (rest : List HostEvent), s.inbox = .reset :: rest →
    ∃ t, step s = .next t ∧ (∀ off, regRead t off = 0) ∧ t.cmdl = 0 ∧ t.status.busy = false ∧
      t.status.hviol = false ∧ (∀ a, t.byteAt a = Config.bufDraw (s.epoch + 1) a) ∧ t.epoch = s.epoch + 1 ∧
      t.platform = s.platform ∧ t.inbox = rest ∧ t.replies = s.replies

/-- R46, R323: State.reset has every register at 0, CMDL 0, no byte of BUF specified, and accepts a CMD write at once. Its
platform is the model's choice (entry 7) and enters nothing here. -/
def Obligations.ResetStateRegisters : Prop :=
  (∀ off, regRead State.reset off = 0) ∧ State.reset.cmdl = 0 ∧
    (∀ a, State.reset.byteAt a = Config.bufDraw State.reset.epoch a) ∧
    ∀ w, (regWrite State.reset 0 w).status.busy = true ∧ (regWrite State.reset 0 w).cmdl = w

/-- R21, R25, R48: an RW register changes only by a host access or by reset: never by the engine. -/
def Obligations.OperandRegistersChangeOnlyByHost : Prop :=
  ∀ s t : State, step s = .next t → (∀ a rest, s.inbox ≠ .bus a :: rest) → (∀ rest, s.inbox ≠ .reset :: rest) →
    t.srcAddr = s.srcAddr ∧ t.srcLen = s.srcLen ∧ t.dstAddr = s.dstAddr ∧ t.recAddr = s.recAddr ∧
      t.recOffset = s.recOffset ∧ t.baseAddr = s.baseAddr ∧ t.familyId = s.familyId ∧ t.slotSel = s.slotSel ∧
      t.cmdl = s.cmdl ∧ t.platform = s.platform

/-! ## The invariant -/

/-- R10, R24, R31 to R33, R37, R43, R44, R47, R72, R281, R296: every step keeps `State.Inv`. -/
def Obligations.StepKeepsInvariant : Prop :=
  ∀ s t : State, s.Inv → step s = .next t → t.Inv

/-- The invariant holds right after reset, on every platform R5 admits and for State.reset. -/
def Obligations.ResetMeetsInvariant : Prop :=
  (∀ (p : Config.Platform) (e : Nat), p.Wf → (State.resetAt p e).Inv) ∧ State.reset.Inv

/-- R72: while a command is in flight every result register reads 0 and STATUS shows BUSY, and of the other bits only HVIOL. -/
def Obligations.ResultsReadZeroWhileBusy : Prop :=
  ∀ s : State, s.Inv → s.status.busy = true →
    regRead s 0x08 = 0 ∧ regRead s 0x18 = 0 ∧ regRead s 0x30 = 0 ∧ regRead s 0x34 = 0 ∧
      regRead s 0x04 = (if s.status.hviol then 0x00000011#32 else 0x00000001#32)

/-! ## UF2_DECODE and UF2_ENCODE -/

/-- R140, R143: UF2_DECODE of whole blocks that all follow one another, with payload sizes up to 476 and room for the output:
payload byte k of block j goes to DST_ADDR plus the sizes of the blocks before j plus k, DST_LEN is the sum of the sizes, and
nothing else changes. -/
def Obligations.Uf2DecodeCompletes : Prop :=
  ∀ s : State, s.Uf2DecodeReady →
    ∃ t, exec .uf2Decode s = .next t ∧
      t = s.succeededWith t.buf (BitVec.ofNat 32 (s.blockAt (s.srcN / 512))) s.pageOffset s.checksum s.status.found ∧
      (∀ j < s.srcN / 512, ∀ k < s.blockSz j,
        t.byteAt (s.dst + s.blockAt j + k) = s.byteAt (s.src + 512 * j + 32 + k)) ∧
      ∀ a, a < s.dst ∨ s.dst + s.blockAt (s.srcN / 512) ≤ a → t.byteAt a = s.byteAt a

/-- R140, R141, R143, R283: the error UF2_DECODE ends in: the first that fails of the input region, the length, then block by
block contiguity before payload size, then the output region. -/
def Obligations.Uf2DecodeErrors : Prop :=
  ∀ s : State,
    (¬ s.InBuf s.src s.srcN → exec .uf2Decode s = .next (s.failedWith 11)) ∧
    (s.InBuf s.src s.srcN → s.srcN % 512 ≠ 0 → exec .uf2Decode s = .next (s.failedWith 4)) ∧
    (s.InBuf s.src s.srcN → s.srcN % 512 = 0 →
      (∀ j < s.srcN / 512, (∀ i < j, s.GoodBlock i) →
        (¬ s.Contiguous j → exec .uf2Decode s = .next (s.failedWith 1)) ∧
        (s.Contiguous j → 476 < s.blockSz j → exec .uf2Decode s = .next (s.failedWith 6))) ∧
      ((∀ j < s.srcN / 512, s.GoodBlock j) → ¬ s.OutClearOfSrc (s.blockAt (s.srcN / 512)) →
        exec .uf2Decode s = .next (s.failedWith 11)))

/-- R95, R144, R147: UF2_ENCODE of whole chunks whose last target address fits in 32 bits, with room for the output: block i's
header, payload, padding and trailing magic at DST_ADDR + 512·i, DST_LEN = 2·SRC_LEN, and nothing else changes. -/
def Obligations.Uf2EncodeCompletes : Prop :=
  ∀ s : State, s.Uf2EncodeReady →
    ∃ t, exec .uf2Encode s = .next t ∧
      t = s.succeededWith t.buf (BitVec.ofNat 32 (2 * s.srcN)) s.pageOffset s.checksum s.status.found ∧
      (∀ i < s.srcN / 256,
        t.le32At (s.dst + 512 * i) = 0x0A324655 ∧ t.le32At (s.dst + 512 * i + 4) = 0x9E5D5157 ∧
        t.le32At (s.dst + 512 * i + 8) = 0 ∧ t.le32At (s.dst + 512 * i + 12) = s.baseAddr.toNat + 256 * i ∧
        t.le32At (s.dst + 512 * i + 16) = 256 ∧ t.le32At (s.dst + 512 * i + 20) = i ∧
        t.le32At (s.dst + 512 * i + 24) = s.srcN / 256 ∧ t.le32At (s.dst + 512 * i + 28) = s.familyId.toNat ∧
        (∀ k < 256, t.byteAt (s.dst + 512 * i + 32 + k) = s.byteAt (s.src + 256 * i + k)) ∧
        (∀ k < 220, t.byteAt (s.dst + 512 * i + 288 + k) = 0) ∧
        t.le32At (s.dst + 512 * i + 508) = 0x0AB16F30) ∧
      ∀ a, a < s.dst ∨ s.dst + 2 * s.srcN ≤ a → t.byteAt a = s.byteAt a

/-- R145, R146, R147, R283: the error UF2_ENCODE ends in: input region, length, address overflow, output region. -/
def Obligations.Uf2EncodeErrors : Prop :=
  ∀ s : State,
    (¬ s.InBuf s.src s.srcN → exec .uf2Encode s = .next (s.failedWith 11)) ∧
    (s.InBuf s.src s.srcN → s.srcN % 256 ≠ 0 → exec .uf2Encode s = .next (s.failedWith 5)) ∧
    (s.InBuf s.src s.srcN → s.srcN % 256 = 0 → 0 < s.srcN →
      0xFFFFFFFF < s.baseAddr.toNat + 256 * (s.srcN / 256 - 1) → exec .uf2Encode s = .next (s.failedWith 7)) ∧
    (s.InBuf s.src s.srcN → s.srcN % 256 = 0 →
      (s.srcN = 0 ∨ s.baseAddr.toNat + 256 * (s.srcN / 256 - 1) ≤ 0xFFFFFFFF) →
      ¬ s.OutClearOfSrc (2 * s.srcN) → exec .uf2Encode s = .next (s.failedWith 11))

/-- R148: the round trip, for every input encode accepts. -/
def Obligations.Uf2RoundTrip : Prop :=
  ∀ (p : List Byte) (base fam : Word), p.length % 256 = 0 →
    (p.length = 0 ∨ base.toNat + 256 * (p.length / 256 - 1) ≤ 0xFFFFFFFF) →
    ∃ img, uf2Encode p base fam = .ok img ∧ uf2Decode img = .ok p

/-- R149: one block's target address changed to any other 32-bit value: with two blocks or more decode fails with
NON_CONTIGUOUS, with one block it still returns the payload. -/
def Obligations.Uf2Perturbation : Prop :=
  ∀ (p img : List Byte) (base fam v : Word) (j : Nat), uf2Encode p base fam = .ok img → j < p.length / 256 →
    v.toNat ≠ le32 img (512 * j + 12) →
    (2 ≤ p.length / 256 → uf2Decode (splice img (512 * j + 12) (put32 v.toNat)) = .error .nonContiguous) ∧
    (p.length / 256 = 1 → uf2Decode (splice img (512 * j + 12) (put32 v.toNat)) = .ok p)

/-- R329: decode's output is at most 476 bytes a block, and exactly half of an image that encode made. -/
def Obligations.DecodeOutputBound : Prop :=
  (∀ img out : List Byte, uf2Decode img = .ok out → 512 * out.length ≤ 476 * img.length) ∧
    ∀ (p img out : List Byte) (base fam : Word), uf2Encode p base fam = .ok img → uf2Decode img = .ok out →
      2 * out.length = img.length

/-! ## CHECKSUM -/

/-- R181 with R180's closed form: CHECKSUM of any region inside BUF, and its one error. The frame is the equation: nothing but
CHECKSUM, DST_LEN, ERRCODE and STATUS changes. -/
def Obligations.ChecksumCommand : Prop :=
  ∀ s : State,
    (s.InBuf s.src s.srcN →
      exec .checksum s = .next
        (s.succeededWith s.buf 0 s.pageOffset
          (BitVec.ofNat 16 (hashOf (fun k => s.byteAt (s.src + k)) s.srcN)) s.status.found)) ∧
    (¬ s.InBuf s.src s.srcN → exec .checksum s = .next (s.failedWith 11))

/-- R180: seed, step, range and closed form of the checksum. -/
def Obligations.ChecksumFunction : Prop :=
  checksum [] = 123 ∧ (∀ (s : List Byte) (b : Byte), checksum (s ++ [b]) = (checksum s * 23 + b.toNat) % 65536) ∧
    (∀ s : List Byte, checksum s < 65536) ∧
    ∀ s : List Byte, checksum s = hashOf (fun k => s.getD k 0) s.length

/-- R184: one changed byte always changes the checksum; adding 1 to a byte and taking 23 from the next never does. -/
def Obligations.ChecksumSensitivity : Prop :=
  (∀ (u v : List Byte) (a b : Byte), a ≠ b → checksum (u ++ a :: v) ≠ checksum (u ++ b :: v)) ∧
    ∀ (u v : List Byte) (a b : Byte), a.toNat + 1 < 256 → 23 ≤ b.toNat →
      checksum (u ++ (a + 1) :: (b - 23) :: v) = checksum (u ++ a :: b :: v)

/-! ## LOCATE_SLOT -/

/-- R200 to R202, R204: LOCATE_SLOT of whole pages where page p is the first of the candidates with the greatest sequence
number, and that number is above 0: PAGE_OFFSET = 2048·p, FOUND = 1, and nothing else but DST_LEN, ERRCODE and STATUS changes. -/
def Obligations.LocateSlotResolves : Prop :=
  ∀ (s : State) (p : Nat), s.LocateReady p →
    exec .locateSlot s = .next (s.succeededWith s.buf 0 (BitVec.ofNat 32 (2048 * p)) s.checksum true)

/-- R203, R204, R283: the error LOCATE_SLOT ends in; not found is the explicit error, never an offset. -/
def Obligations.LocateSlotErrors : Prop :=
  ∀ s : State,
    (¬ s.InBuf s.src s.srcN → exec .locateSlot s = .next (s.failedWith 11)) ∧
    (s.InBuf s.src s.srcN → s.srcN % 2048 ≠ 0 → exec .locateSlot s = .next (s.failedWith 8)) ∧
    (s.InBuf s.src s.srcN → s.srcN % 2048 = 0 → s.NoneResolves → exec .locateSlot s = .next (s.failedWith 3))

/-- R200 to R204: LOCATE_SLOT of whole pages inside BUF has two ends and no third: it answers the offset of a page that
resolves, or no page resolves and it ends in SLOT_NOT_RESOLVED. -/
def Obligations.LocateDecided : Prop :=
  ∀ s : State, s.InBuf s.src s.srcN → s.srcN % 2048 = 0 →
    (∃ p, s.Resolves p ∧
      exec .locateSlot s = .next (s.succeededWith s.buf 0 (BitVec.ofNat 32 (2048 * p)) s.checksum true)) ∨
    (s.NoneResolves ∧ exec .locateSlot s = .next (s.failedWith 3))

/-! ## SI_UNPACK and SI_PACK -/

/-- R110, R230, R231: SI_UNPACK of one page: the first 1060 record bytes as they stand, the notes sign-extended, pitched and
loop zero-extended, DST_LEN = 1100, and nothing else changes. -/
def Obligations.SiUnpackCompletes : Prop :=
  ∀ s : State, s.SiUnpackReady →
    ∃ t, exec .siUnpack s = .next t ∧
      t = s.succeededWith t.buf 1100 s.pageOffset s.checksum s.status.found ∧
      (∀ k < 1060, t.byteAt (s.dst + k) = s.byteAt (s.src + s.off + k)) ∧
      (∀ k < 8, t.le32At (s.dst + 1060 + 4 * k) =
        ((s.byteAt (s.src + s.off + 1060 + k)).signExtend 32).toNat) ∧
      t.le32At (s.dst + 1092) = (s.byteAt (s.src + s.off + 1068)).toNat ∧
      t.le32At (s.dst + 1096) = (s.byteAt (s.src + s.off + 1069)).toNat ∧
      ∀ a, a < s.dst ∨ s.dst + 1100 ≤ a → t.byteAt a = s.byteAt a

/-- R231, R283: the error SI_UNPACK ends in: input region, page length, record bounds, output region. -/
def Obligations.SiUnpackErrors : Prop :=
  ∀ s : State,
    (¬ s.InBuf s.src s.srcN → exec .siUnpack s = .next (s.failedWith 11)) ∧
    (s.InBuf s.src s.srcN → s.srcN ≠ 2048 → exec .siUnpack s = .next (s.failedWith 9)) ∧
    (s.InBuf s.src s.srcN → s.srcN = 2048 → 968 < s.off → exec .siUnpack s = .next (s.failedWith 10)) ∧
    (s.InBuf s.src s.srcN → s.srcN = 2048 → s.off ≤ 968 → ¬ s.OutClearOfSrc 1100 →
      exec .siUnpack s = .next (s.failedWith 11))

/-- R232, R233: SI_PACK of one page: the 1060 bytes from REC_OFFSET come from the URI, every other byte of the output is the
input page's (notes, pitched, loop, padding and footer among them), DST_LEN = 2048, and nothing else changes. -/
def Obligations.SiPackCompletes : Prop :=
  ∀ s : State, s.SiPackReady →
    ∃ t, exec .siPack s = .next t ∧
      t = s.succeededWith t.buf 2048 s.pageOffset s.checksum s.status.found ∧
      (∀ k < 2048, t.byteAt (s.dst + k) =
        if s.off ≤ k ∧ k < s.off + 1060 then s.byteAt (s.uri + (k - s.off)) else s.byteAt (s.src + k)) ∧
      ∀ a, a < s.dst ∨ s.dst + 2048 ≤ a → t.byteAt a = s.byteAt a

/-- R233, R283: the error SI_PACK ends in: input regions, page length, record bounds, output region. -/
def Obligations.SiPackErrors : Prop :=
  ∀ s : State,
    (¬ s.InBuf s.src s.srcN ∨ ¬ s.InBuf s.uri 1100 → exec .siPack s = .next (s.failedWith 11)) ∧
    (s.InBuf s.src s.srcN → s.InBuf s.uri 1100 →
      (s.srcN ≠ 2048 → exec .siPack s = .next (s.failedWith 9)) ∧
      (s.srcN = 2048 → 968 < s.off → exec .siPack s = .next (s.failedWith 10)) ∧
      (s.srcN = 2048 → s.off ≤ 968 → ¬ s.OutClearOfInputs 2048 → exec .siPack s = .next (s.failedWith 11)))

/-- R238: unpack after pack. -/
def Obligations.UnpackAfterPack : Prop :=
  ∀ (pg u : List Byte) (off : Nat), pg.length = 2048 → u.length = 1100 → off ≤ 968 →
    ∃ pg' u' v, siPack pg u off = .ok pg' ∧ siUnpack pg' off = .ok u' ∧ siUnpack pg off = .ok v ∧
      slice u' 0 1060 = slice u 0 1060 ∧ slice u' 1060 40 = slice v 1060 40

/-! ## PATCH -/

/-- R234, R235, R236, R182: PATCH of whole pages where page p resolves: the output is the image with record bytes
REC_OFFSET .. REC_OFFSET+1059 of page p from the URI and its two footer checksum bytes rewritten, every other byte the
image's (slot id, version and sequence number among them); CHECKSUM is the checksum of the new page's body. -/
def Obligations.PatchCompletes : Prop :=
  ∀ (s : State) (p : Nat), s.PatchReady p →
    ∃ t, exec .patch s = .next t ∧
      t = s.succeededWith t.buf s.srcLen (BitVec.ofNat 32 (2048 * p))
        (BitVec.ofNat 16 (hashOf (fun k => t.byteAt (s.dst + 2048 * p + k)) 2040)) true ∧
      (∀ k < s.srcN, t.byteAt (s.dst + k) =
        if 2048 * p + s.off ≤ k ∧ k < 2048 * p + s.off + 1060 then s.byteAt (s.uri + (k - (2048 * p + s.off)))
        else if k = 2048 * p + 2042 then t.checksum.extractLsb' 0 8
        else if k = 2048 * p + 2043 then t.checksum.extractLsb' 8 8
        else s.byteAt (s.src + k)) ∧
      ∀ a, a < s.dst ∨ s.dst + s.srcN ≤ a → t.byteAt a = s.byteAt a

/-- R235, R283: the error PATCH ends in: input regions, image length, record bounds, not resolved, output region. -/
def Obligations.PatchErrors : Prop :=
  ∀ s : State,
    (¬ s.InBuf s.src s.srcN ∨ ¬ s.InBuf s.uri 1100 → exec .patch s = .next (s.failedWith 11)) ∧
    (s.InBuf s.src s.srcN → s.InBuf s.uri 1100 →
      (s.srcN % 2048 ≠ 0 → exec .patch s = .next (s.failedWith 8)) ∧
      (s.srcN % 2048 = 0 → 968 < s.off → exec .patch s = .next (s.failedWith 10)) ∧
      (s.srcN % 2048 = 0 → s.off ≤ 968 → s.NoneResolves → exec .patch s = .next (s.failedWith 3)) ∧
      (∀ p, s.srcN % 2048 = 0 → s.off ≤ 968 → s.Resolves p → ¬ s.OutClearOfInputs s.srcN →
        exec .patch s = .next (s.failedWith 11)))

/-- R235 corner case 3: patching the patched image again with the same operands gives the same result. -/
def Obligations.PatchIdempotent : Prop :=
  ∀ (img uri : List Byte) (sid ver off : Nat) (r : Patched), uri.length = 1100 →
    patch img sid ver uri off = .ok r → patch r.image sid ver uri off = .ok r

/-- R183 of the operations of LOCATE_SLOT, SI_UNPACK, SI_PACK and PATCH: with two other bytes at page p's footer checksum,
locate answers the same and si_unpack returns the same; si_pack fails the same or carries the bytes through; patch fails the
same, or answers the same page and checksum and an image that differs in those two bytes only, and not at all where p is the
page patch rewrites. -/
def Obligations.StoredChecksumIgnored : Prop :=
  ∀ (img uri : List Byte) (sid ver off p : Nat) (a b : Byte), p < img.length / 2048 →
    locate (splice img (2048 * p + 2042) [a, b]) sid ver = locate img sid ver ∧
      (img.length = 2048 → siUnpack (splice img 2042 [a, b]) off = siUnpack img off ∧
        siPack (splice img 2042 [a, b]) uri off = (siPack img uri off).map fun pg => splice pg 2042 [a, b]) ∧
      patch (splice img (2048 * p + 2042) [a, b]) sid ver uri off =
        (patch img sid ver uri off).map fun r =>
          if r.page = 2048 * p then r else { r with image := splice r.image (2048 * p + 2042) [a, b] }

/-! ## Every command -/

/-- R24, R25, R49: the frame of the commands with an output region. No RW register, CMDL, HVIOL or host-side field changes; on
an error BUF is unchanged; on success only bytes of the output region (DST_ADDR, DST_LEN) change, and the results R49 does
not list stay. -/
def Obligations.StoringCommandsFrame : Prop :=
  ∀ (i : Instr) (s t : State), i ∈ [.uf2Decode, .uf2Encode, .siUnpack, .siPack, .patch] → s.platform.Wf →
    exec i s = .next t →
      SameButResults s t ∧
      (t.status.err = true → ∀ a, t.byteAt a = s.byteAt a) ∧
      (∀ a, a < s.dst ∨ s.dst + t.dstLen.toNat ≤ a → t.byteAt a = s.byteAt a) ∧
      (i ≠ .patch → t.pageOffset = s.pageOffset ∧ t.checksum = s.checksum ∧ t.status.found = s.status.found)

/-- R49, R181, R204: the frame of the commands without an output region: all of BUF is unchanged. -/
def Obligations.NonStoringCommandsFrame : Prop :=
  ∀ (i : Instr) (s t : State), i = .checksum ∨ i = .locateSlot → exec i s = .next t →
    SameButResults s t ∧ t.buf = s.buf ∧ (∀ a, t.byteAt a = s.byteAt a) ∧
      (i = .checksum → t.pageOffset = s.pageOffset ∧ t.status.found = s.status.found) ∧
      (i = .locateSlot → t.checksum = s.checksum)

/-- R23, R49: two machines that agree on the platform, on the registers the command reads, on the bytes of its input regions
and on the results the launch cleared end with the same status, error, results and output bytes. -/
def Obligations.CommandsDependOnlyOnInputs : Prop :=
  ∀ (i : Instr) (s u : State), u.platform = s.platform →
    (∀ r, readsRegister i r = true → readReg u r = readReg s r) → (∀ a, readsByte s i a → u.byteAt a = s.byteAt a) →
    u.status = s.status → u.dstLen = s.dstLen → u.pageOffset = s.pageOffset → u.checksum = s.checksum →
    ∃ t v, exec i s = .next t ∧ exec i u = .next v ∧ v.status = t.status ∧ v.errcode = t.errcode ∧
      v.dstLen = t.dstLen ∧ v.pageOffset = t.pageOffset ∧ v.checksum = t.checksum ∧
      (t.status.err = false → ∀ k < t.dstLen.toNat, v.byteAt (u.dst + k) = t.byteAt (s.dst + k))

/-- R284: the error end of a launched command. -/
def Obligations.FailedCommandWritesNothing : Prop :=
  ∀ (i : Instr) (s t : State), s.Inv → s.status.busy = true → exec i s = .next t → t.status.err = true →
    t = s.failedWith t.errcode ∧ t.errcode ≠ 0 ∧ t.dstLen = 0 ∧ t.pageOffset = 0 ∧ t.checksum = 0 ∧
      t.status.found = false

/-- R281, R282, R285, R296: a command ends done and idle, either without error and ERRCODE 0, or in one of the errors R282
gives it; so never with code 2 or a code above 12. -/
def Obligations.CommandEndCodes : Prop :=
  ∀ (i : Instr) (s t : State), exec i s = .next t →
    t.status.done = true ∧ t.status.busy = false ∧
      ((t.status.err = false ∧ t.errcode = 0) ∨ (t.status.err = true ∧ t.errcode ∈ commandCodes i))
end

