-- ==== Sys2Proof/Laws/Bytes.lean ====
section
/-! SUPPORT. Byte sequences: lengths, slices and splices byte by byte, and the little-endian round trip. -/

namespace Sys2Proof.Machine

@[simp] theorem length_putLe : ∀ n v, (putLe n v).length = n
  | 0, _ => rfl
  | n + 1, v => by simp [putLe, length_putLe n]

@[simp] theorem length_put32 (v : Nat) : (put32 v).length = 4 := length_putLe 4 v

@[simp] theorem length_put16 (v : Nat) : (put16 v).length = 2 := length_putLe 2 v

@[simp] theorem length_zeros (n : Nat) : (zeros n).length = n := List.length_replicate

/-- Little-endian bytes read back as the number, reduced to the bytes' width. -/
theorem leNat_putLe : ∀ n v, leNat (putLe n v) = v % 256 ^ n
  | 0, v => by simp [putLe, leNat, Nat.mod_one]
  | n + 1, v => by
    have h : v % (256 * 256 ^ n) = v % 256 + 256 * (v / 256 % 256 ^ n) := Nat.mod_mul
    rw [putLe, leNat, leNat_putLe n, BitVec.toNat_ofNat, Nat.pow_succ 256 n, Nat.mul_comm (256 ^ n) 256, h]

/-- A little-endian number of `n` bytes is below 256^n. -/
theorem leNat_lt : ∀ bs : List Byte, leNat bs < 256 ^ bs.length
  | [] => by simp [leNat]
  | b :: bs => by
    have hb := b.isLt
    have := leNat_lt bs
    rw [leNat, List.length_cons, Nat.pow_succ]
    omega

/-- The bytes of a number are the number's bytes: writing back what was read changes nothing. -/
theorem putLe_leNat : ∀ bs : List Byte, putLe bs.length (leNat bs) = bs
  | [] => rfl
  | b :: bs => by
    have hb := b.isLt
    rw [List.length_cons, putLe, leNat, show (b.toNat + 256 * leNat bs) / 256 = leNat bs by omega, putLe_leNat bs]
    congr 1
    apply BitVec.eq_of_toNat_eq
    rw [BitVec.toNat_ofNat]
    omega

theorem length_slice (s : List Byte) (o n : Nat) : (slice s o n).length = min n (s.length - o) := by
  simp [slice]

/-- Byte `k` of a slice. -/
theorem slice_getD (s : List Byte) (o n k : Nat) (h : k < n) : (slice s o n).getD k 0 = s.getD (o + k) 0 := by
  simp only [slice, List.getD_eq_getElem?_getD, List.getElem?_take, if_pos h, List.getElem?_drop]

/-- `le32` reads four bytes (R9). -/
theorem le32_lt (s : List Byte) (o : Nat) : le32 s o < 2 ^ 32 := by
  have h := leNat_lt (slice s o 4)
  have hl : (slice s o 4).length ≤ 4 := by rw [length_slice]; omega
  exact lt_of_lt_of_le h (by simpa using Nat.pow_le_pow_right (by norm_num : 0 < 256) hl)

/-- The formula of R9 for `le32`, where the four bytes are there. -/
theorem le32_eq (l : List Byte) (o : Nat) (h : o + 4 ≤ l.length) :
    le32 l o = (l.getD o 0).toNat + 2 ^ 8 * (l.getD (o + 1) 0).toNat + 2 ^ 16 * (l.getD (o + 2) 0).toNat +
      2 ^ 24 * (l.getD (o + 3) 0).toNat := by
  have hs : slice l o 4 = [l.getD o 0, l.getD (o + 1) 0, l.getD (o + 2) 0, l.getD (o + 3) 0] := by
    apply List.ext_getElem
    · simp [length_slice]; omega
    · intro i h1 h2
      have h3 := slice_getD l o 4 i (by simpa using h2)
      rw [List.getD_eq_getElem _ _ h1] at h3
      rw [h3]
      simp only [List.length_cons, List.length_nil] at h2
      interval_cases i <;> simp
  rw [le32, hs]
  simp only [leNat]
  omega

theorem length_splice (s : List Byte) (o : Nat) (t : List Byte) (h : o + t.length ≤ s.length) :
    (splice s o t).length = s.length := by
  simp [splice]; omega

/-- Byte `k` of a splice: the new bytes inside the replaced range, the old ones outside it. -/
theorem splice_getD (s : List Byte) (o : Nat) (t : List Byte) (k : Nat) (h : o + t.length ≤ s.length) :
    (splice s o t).getD k 0 = if o ≤ k ∧ k < o + t.length then t.getD (k - o) 0 else s.getD k 0 := by
  have ho : (s.take o).length = o := by simp; omega
  simp only [splice, List.getD_eq_getElem?_getD]
  by_cases h1 : k < o
  · rw [if_neg (by omega), List.getElem?_append_left (by simp; omega), List.getElem?_append_left (by omega),
      List.getElem?_take, if_pos h1]
  · by_cases h2 : k < o + t.length
    · rw [if_pos ⟨by omega, h2⟩, List.getElem?_append_left (by simp; omega), List.getElem?_append_right (by omega), ho]
    · rw [if_neg (by omega), List.getElem?_append_right (by simp; omega), List.getElem?_drop]
      congr 2
      simp; omega

/-- Byte sequences of one length with the same bytes are equal. -/
theorem bytes_ext {a b : List Byte} (hl : a.length = b.length) (h : ∀ k < a.length, a.getD k 0 = b.getD k 0) : a = b := by
  apply List.ext_getElem hl
  intro i h1 h2
  have := h i h1
  rwa [List.getD_eq_getElem _ _ h1, List.getD_eq_getElem _ _ h2] at this

theorem take_getD (s : List Byte) (n k : Nat) (h : k < n) : (s.take n).getD k 0 = s.getD k 0 := by
  simp only [List.getD_eq_getElem?_getD, List.getElem?_take, if_pos h]

theorem drop_getD (s : List Byte) (o k : Nat) : (s.drop o).getD k 0 = s.getD (o + k) 0 := by
  simp only [List.getD_eq_getElem?_getD, List.getElem?_drop]

/-- Byte `k` of a little-endian number. -/
theorem putLe_getD (n v k : Nat) (h : k < n) : ((putLe n v).getD k 0).toNat = v / 256 ^ k % 256 := by
  induction n generalizing v k with
  | zero => omega
  | succ n ih =>
    cases k with
    | zero => simp [putLe]
    | succ k =>
      simp only [putLe, List.getD_cons_succ]
      rw [ih _ _ (by omega), Nat.div_div_eq_div_mul, pow_succ, Nat.mul_comm]

/-- A field that holds the bytes of `put32(v)` reads as `v`. -/
theorem le32_of_put32 {l : List Byte} {o v : Nat} (h : o + 4 ≤ l.length) (hv : v < 2 ^ 32)
    (hk : ∀ k < 4, l.getD (o + k) 0 = (put32 v).getD k 0) : le32 l o = v := by
  have h0 := hk 0 (by omega)
  rw [Nat.add_zero] at h0
  rw [le32_eq _ _ h, h0, hk 1 (by omega), hk 2 (by omega), hk 3 (by omega), put32, putLe_getD _ _ _ (by omega),
    putLe_getD _ _ _ (by omega), putLe_getD _ _ _ (by omega), putLe_getD _ _ _ (by omega)]
  omega

/-- The length of a sequence of pieces of one length. -/
theorem length_pieces {f : Nat → List Byte} {w : Nat} :
    ∀ n, (∀ i < n, (f i).length = w) → ((List.range n).flatMap f).length = w * n
  | 0, _ => by simp
  | n + 1, h => by
    rw [List.range_succ, List.flatMap_append, List.length_append, length_pieces n fun i hi => h i (by omega)]
    simp [h n (by omega), Nat.mul_add]

/-- Byte `k` of piece `i` of a sequence of pieces of one length. -/
theorem pieces_getD {f : Nat → List Byte} {w : Nat} :
    ∀ n, (∀ i < n, (f i).length = w) → ∀ i < n, ∀ k < w, ((List.range n).flatMap f).getD (w * i + k) 0 = (f i).getD k 0
  | 0, _, i, hi, _, _ => by omega
  | n + 1, h, i, hi, k, hk => by
    have hl := length_pieces n fun i hi => h i (by omega)
    rw [List.range_succ, List.flatMap_append]
    by_cases hin : i < n
    · have := Nat.mul_le_mul_left w (show i + 1 ≤ n from hin)
      rw [Nat.mul_add] at this
      rw [List.getD_append _ _ _ _ (by omega), pieces_getD n (fun i hi => h i (by omega)) i hin k hk]
    · have : i = n := by omega
      subst this
      rw [List.getD_append_right _ _ _ _ (by omega), hl]
      simp

end Sys2Proof.Machine
end

