-- ==== Sys2Proof/Laws/Formulas.lean ====
section
/-! SUPPORT. Small lemmas of the formulas the claims are stated in. -/

namespace Sys2Proof.Machine

theorem sumBelow_congr {f g : Nat → Nat} : ∀ n, (∀ k < n, f k = g k) → sumBelow f n = sumBelow g n
  | 0, _ => rfl
  | n + 1, h => by
    rw [sumBelow, sumBelow, sumBelow_congr n fun k hk => h k (by omega), h n (by omega)]

theorem sumBelow_add (f : Nat → Nat) (a : Nat) : ∀ b, sumBelow f (a + b) = sumBelow f a + sumBelow (fun k => f (a + k)) b
  | 0 => rfl
  | b + 1 => by rw [← Nat.add_assoc, sumBelow, sumBelow_add f a b, sumBelow, Nat.add_assoc]

theorem sumBelow_mul (f : Nat → Nat) (c : Nat) : ∀ n, sumBelow (fun k => f k * c) n = sumBelow f n * c
  | 0 => by simp [sumBelow]
  | n + 1 => by rw [sumBelow, sumBelow, sumBelow_mul f c n, Nat.add_mul]

theorem sumBelow_mono (f : Nat → Nat) {a b : Nat} (h : a ≤ b) : sumBelow f a ≤ sumBelow f b := by
  rw [show b = a + (b - a) by omega, sumBelow_add]
  omega

theorem hashOf_congr {f g : Nat → Byte} (n : Nat) (h : ∀ k < n, f k = g k) : hashOf f n = hashOf g n := by
  unfold hashOf
  rw [sumBelow_congr n]
  intro k hk
  simp only [h k hk]

/-- One more byte of the closed form is one more step of R180. -/
theorem hashOf_succ (f : Nat → Byte) (n : Nat) : hashOf f (n + 1) = (hashOf f n * 23 + (f n).toNat) % 65536 := by
  have hs : sumBelow (fun k => (f k).toNat * 23 ^ (n + 1 - 1 - k)) (n + 1) =
      sumBelow (fun k => (f k).toNat * 23 ^ (n - 1 - k)) n * 23 + (f n).toNat := by
    rw [sumBelow, ← sumBelow_mul]
    simp only [Nat.add_sub_cancel, Nat.sub_self, pow_zero, Nat.mul_one]
    congr 1
    apply sumBelow_congr
    intro k hk
    rw [show n - k = (n - 1 - k) + 1 by omega, pow_succ, Nat.mul_assoc]
  simp only [hashOf]
  rw [hs, pow_succ]
  omega

end Sys2Proof.Machine
end

