-- ==== Sys2Proof/Laws/State.lean ====
section
/-! SUPPORT. One lemma per field per named update of State, true by rfl, so that no proof unfolds a record update. -/

namespace Sys2Proof.Machine

@[simp] theorem launch_platform (s : State) (w : Word) : (launch s w).platform = s.platform := rfl
@[simp] theorem launch_cmdl (s : State) (w : Word) : (launch s w).cmdl = w := rfl
@[simp] theorem launch_status (s : State) (w : Word) : (launch s w).status = s.status.launched := rfl
@[simp] theorem launch_errcode (s : State) (w : Word) : (launch s w).errcode = 0 := rfl
@[simp] theorem launch_srcAddr (s : State) (w : Word) : (launch s w).srcAddr = s.srcAddr := rfl
@[simp] theorem launch_srcLen (s : State) (w : Word) : (launch s w).srcLen = s.srcLen := rfl
@[simp] theorem launch_dstAddr (s : State) (w : Word) : (launch s w).dstAddr = s.dstAddr := rfl
@[simp] theorem launch_dstLen (s : State) (w : Word) : (launch s w).dstLen = 0 := rfl
@[simp] theorem launch_recAddr (s : State) (w : Word) : (launch s w).recAddr = s.recAddr := rfl
@[simp] theorem launch_recOffset (s : State) (w : Word) : (launch s w).recOffset = s.recOffset := rfl
@[simp] theorem launch_baseAddr (s : State) (w : Word) : (launch s w).baseAddr = s.baseAddr := rfl
@[simp] theorem launch_familyId (s : State) (w : Word) : (launch s w).familyId = s.familyId := rfl
@[simp] theorem launch_slotSel (s : State) (w : Word) : (launch s w).slotSel = s.slotSel := rfl
@[simp] theorem launch_pageOffset (s : State) (w : Word) : (launch s w).pageOffset = 0 := rfl
@[simp] theorem launch_checksum (s : State) (w : Word) : (launch s w).checksum = 0 := rfl
@[simp] theorem launch_buf (s : State) (w : Word) : (launch s w).buf = s.buf := rfl
@[simp] theorem launch_epoch (s : State) (w : Word) : (launch s w).epoch = s.epoch := rfl
@[simp] theorem launch_inbox (s : State) (w : Word) : (launch s w).inbox = s.inbox := rfl
@[simp] theorem launch_replies (s : State) (w : Word) : (launch s w).replies = s.replies := rfl

@[simp] theorem errorEnd_platform (s : State) (e : CmdError) : (errorEnd s e).platform = s.platform := rfl
@[simp] theorem errorEnd_cmdl (s : State) (e : CmdError) : (errorEnd s e).cmdl = s.cmdl := rfl
@[simp] theorem errorEnd_status (s : State) (e : CmdError) : (errorEnd s e).status = s.status.failed := rfl
@[simp] theorem errorEnd_errcode (s : State) (e : CmdError) : (errorEnd s e).errcode = e.code := rfl
@[simp] theorem errorEnd_srcAddr (s : State) (e : CmdError) : (errorEnd s e).srcAddr = s.srcAddr := rfl
@[simp] theorem errorEnd_srcLen (s : State) (e : CmdError) : (errorEnd s e).srcLen = s.srcLen := rfl
@[simp] theorem errorEnd_dstAddr (s : State) (e : CmdError) : (errorEnd s e).dstAddr = s.dstAddr := rfl
@[simp] theorem errorEnd_dstLen (s : State) (e : CmdError) : (errorEnd s e).dstLen = s.dstLen := rfl
@[simp] theorem errorEnd_recAddr (s : State) (e : CmdError) : (errorEnd s e).recAddr = s.recAddr := rfl
@[simp] theorem errorEnd_recOffset (s : State) (e : CmdError) : (errorEnd s e).recOffset = s.recOffset := rfl
@[simp] theorem errorEnd_baseAddr (s : State) (e : CmdError) : (errorEnd s e).baseAddr = s.baseAddr := rfl
@[simp] theorem errorEnd_familyId (s : State) (e : CmdError) : (errorEnd s e).familyId = s.familyId := rfl
@[simp] theorem errorEnd_slotSel (s : State) (e : CmdError) : (errorEnd s e).slotSel = s.slotSel := rfl
@[simp] theorem errorEnd_pageOffset (s : State) (e : CmdError) : (errorEnd s e).pageOffset = s.pageOffset := rfl
@[simp] theorem errorEnd_checksum (s : State) (e : CmdError) : (errorEnd s e).checksum = s.checksum := rfl
@[simp] theorem errorEnd_buf (s : State) (e : CmdError) : (errorEnd s e).buf = s.buf := rfl
@[simp] theorem errorEnd_epoch (s : State) (e : CmdError) : (errorEnd s e).epoch = s.epoch := rfl
@[simp] theorem errorEnd_inbox (s : State) (e : CmdError) : (errorEnd s e).inbox = s.inbox := rfl
@[simp] theorem errorEnd_replies (s : State) (e : CmdError) : (errorEnd s e).replies = s.replies := rfl

@[simp] theorem successEnd_platform (s : State) (r : Results) : (successEnd s r).platform = s.platform := rfl
@[simp] theorem successEnd_cmdl (s : State) (r : Results) : (successEnd s r).cmdl = s.cmdl := rfl
@[simp] theorem successEnd_status (s : State) (r : Results) : (successEnd s r).status = s.status.succeeded r.page.isSome := rfl
@[simp] theorem successEnd_errcode (s : State) (r : Results) : (successEnd s r).errcode = 0 := rfl
@[simp] theorem successEnd_srcAddr (s : State) (r : Results) : (successEnd s r).srcAddr = s.srcAddr := rfl
@[simp] theorem successEnd_srcLen (s : State) (r : Results) : (successEnd s r).srcLen = s.srcLen := rfl
@[simp] theorem successEnd_dstAddr (s : State) (r : Results) : (successEnd s r).dstAddr = s.dstAddr := rfl
@[simp] theorem successEnd_dstLen (s : State) (r : Results) : (successEnd s r).dstLen = BitVec.ofNat 32 (r.out.getD []).length := rfl
@[simp] theorem successEnd_recAddr (s : State) (r : Results) : (successEnd s r).recAddr = s.recAddr := rfl
@[simp] theorem successEnd_recOffset (s : State) (r : Results) : (successEnd s r).recOffset = s.recOffset := rfl
@[simp] theorem successEnd_baseAddr (s : State) (r : Results) : (successEnd s r).baseAddr = s.baseAddr := rfl
@[simp] theorem successEnd_familyId (s : State) (r : Results) : (successEnd s r).familyId = s.familyId := rfl
@[simp] theorem successEnd_slotSel (s : State) (r : Results) : (successEnd s r).slotSel = s.slotSel := rfl
@[simp] theorem successEnd_pageOffset (s : State) (r : Results) : (successEnd s r).pageOffset = (r.page.map (BitVec.ofNat 32)).getD s.pageOffset := rfl
@[simp] theorem successEnd_checksum (s : State) (r : Results) : (successEnd s r).checksum = (r.sum.map (BitVec.ofNat 16)).getD s.checksum := rfl
@[simp] theorem successEnd_buf (s : State) (r : Results) : (successEnd s r).buf = writeBytes s.buf s.dstAddr.toNat (r.out.getD []) := rfl
@[simp] theorem successEnd_epoch (s : State) (r : Results) : (successEnd s r).epoch = s.epoch := rfl
@[simp] theorem successEnd_inbox (s : State) (r : Results) : (successEnd s r).inbox = s.inbox := rfl
@[simp] theorem successEnd_replies (s : State) (r : Results) : (successEnd s r).replies = s.replies := rfl

@[simp] theorem reply_platform (s : State) (v : Word) : (reply s v).platform = s.platform := rfl
@[simp] theorem reply_cmdl (s : State) (v : Word) : (reply s v).cmdl = s.cmdl := rfl
@[simp] theorem reply_status (s : State) (v : Word) : (reply s v).status = s.status := rfl
@[simp] theorem reply_errcode (s : State) (v : Word) : (reply s v).errcode = s.errcode := rfl
@[simp] theorem reply_srcAddr (s : State) (v : Word) : (reply s v).srcAddr = s.srcAddr := rfl
@[simp] theorem reply_srcLen (s : State) (v : Word) : (reply s v).srcLen = s.srcLen := rfl
@[simp] theorem reply_dstAddr (s : State) (v : Word) : (reply s v).dstAddr = s.dstAddr := rfl
@[simp] theorem reply_dstLen (s : State) (v : Word) : (reply s v).dstLen = s.dstLen := rfl
@[simp] theorem reply_recAddr (s : State) (v : Word) : (reply s v).recAddr = s.recAddr := rfl
@[simp] theorem reply_recOffset (s : State) (v : Word) : (reply s v).recOffset = s.recOffset := rfl
@[simp] theorem reply_baseAddr (s : State) (v : Word) : (reply s v).baseAddr = s.baseAddr := rfl
@[simp] theorem reply_familyId (s : State) (v : Word) : (reply s v).familyId = s.familyId := rfl
@[simp] theorem reply_slotSel (s : State) (v : Word) : (reply s v).slotSel = s.slotSel := rfl
@[simp] theorem reply_pageOffset (s : State) (v : Word) : (reply s v).pageOffset = s.pageOffset := rfl
@[simp] theorem reply_checksum (s : State) (v : Word) : (reply s v).checksum = s.checksum := rfl
@[simp] theorem reply_buf (s : State) (v : Word) : (reply s v).buf = s.buf := rfl
@[simp] theorem reply_epoch (s : State) (v : Word) : (reply s v).epoch = s.epoch := rfl
@[simp] theorem reply_inbox (s : State) (v : Word) : (reply s v).inbox = s.inbox := rfl
@[simp] theorem reply_replies (s : State) (v : Word) : (reply s v).replies = s.replies ++ [v] := rfl

@[simp] theorem violate_platform (s : State) : (violate s).platform = s.platform := rfl
@[simp] theorem violate_cmdl (s : State) : (violate s).cmdl = s.cmdl := rfl
@[simp] theorem violate_status (s : State) : (violate s).status = s.status.violated := rfl
@[simp] theorem violate_errcode (s : State) : (violate s).errcode = s.errcode := rfl
@[simp] theorem violate_srcAddr (s : State) : (violate s).srcAddr = s.srcAddr := rfl
@[simp] theorem violate_srcLen (s : State) : (violate s).srcLen = s.srcLen := rfl
@[simp] theorem violate_dstAddr (s : State) : (violate s).dstAddr = s.dstAddr := rfl
@[simp] theorem violate_dstLen (s : State) : (violate s).dstLen = s.dstLen := rfl
@[simp] theorem violate_recAddr (s : State) : (violate s).recAddr = s.recAddr := rfl
@[simp] theorem violate_recOffset (s : State) : (violate s).recOffset = s.recOffset := rfl
@[simp] theorem violate_baseAddr (s : State) : (violate s).baseAddr = s.baseAddr := rfl
@[simp] theorem violate_familyId (s : State) : (violate s).familyId = s.familyId := rfl
@[simp] theorem violate_slotSel (s : State) : (violate s).slotSel = s.slotSel := rfl
@[simp] theorem violate_pageOffset (s : State) : (violate s).pageOffset = s.pageOffset := rfl
@[simp] theorem violate_checksum (s : State) : (violate s).checksum = s.checksum := rfl
@[simp] theorem violate_buf (s : State) : (violate s).buf = s.buf := rfl
@[simp] theorem violate_epoch (s : State) : (violate s).epoch = s.epoch := rfl
@[simp] theorem violate_inbox (s : State) : (violate s).inbox = s.inbox := rfl
@[simp] theorem violate_replies (s : State) : (violate s).replies = s.replies := rfl

@[simp] theorem State.memWrite_platform (s : State) (a n : Nat) (v : Word) : (s.memWrite a n v).platform = s.platform := rfl
@[simp] theorem State.memWrite_cmdl (s : State) (a n : Nat) (v : Word) : (s.memWrite a n v).cmdl = s.cmdl := rfl
@[simp] theorem State.memWrite_status (s : State) (a n : Nat) (v : Word) : (s.memWrite a n v).status = s.status := rfl
@[simp] theorem State.memWrite_errcode (s : State) (a n : Nat) (v : Word) : (s.memWrite a n v).errcode = s.errcode := rfl
@[simp] theorem State.memWrite_srcAddr (s : State) (a n : Nat) (v : Word) : (s.memWrite a n v).srcAddr = s.srcAddr := rfl
@[simp] theorem State.memWrite_srcLen (s : State) (a n : Nat) (v : Word) : (s.memWrite a n v).srcLen = s.srcLen := rfl
@[simp] theorem State.memWrite_dstAddr (s : State) (a n : Nat) (v : Word) : (s.memWrite a n v).dstAddr = s.dstAddr := rfl
@[simp] theorem State.memWrite_dstLen (s : State) (a n : Nat) (v : Word) : (s.memWrite a n v).dstLen = s.dstLen := rfl
@[simp] theorem State.memWrite_recAddr (s : State) (a n : Nat) (v : Word) : (s.memWrite a n v).recAddr = s.recAddr := rfl
@[simp] theorem State.memWrite_recOffset (s : State) (a n : Nat) (v : Word) : (s.memWrite a n v).recOffset = s.recOffset := rfl
@[simp] theorem State.memWrite_baseAddr (s : State) (a n : Nat) (v : Word) : (s.memWrite a n v).baseAddr = s.baseAddr := rfl
@[simp] theorem State.memWrite_familyId (s : State) (a n : Nat) (v : Word) : (s.memWrite a n v).familyId = s.familyId := rfl
@[simp] theorem State.memWrite_slotSel (s : State) (a n : Nat) (v : Word) : (s.memWrite a n v).slotSel = s.slotSel := rfl
@[simp] theorem State.memWrite_pageOffset (s : State) (a n : Nat) (v : Word) : (s.memWrite a n v).pageOffset = s.pageOffset := rfl
@[simp] theorem State.memWrite_checksum (s : State) (a n : Nat) (v : Word) : (s.memWrite a n v).checksum = s.checksum := rfl
@[simp] theorem State.memWrite_buf (s : State) (a n : Nat) (v : Word) : (s.memWrite a n v).buf = writeBytes s.buf a (putLe n v.toNat) := rfl
@[simp] theorem State.memWrite_epoch (s : State) (a n : Nat) (v : Word) : (s.memWrite a n v).epoch = s.epoch := rfl
@[simp] theorem State.memWrite_inbox (s : State) (a n : Nat) (v : Word) : (s.memWrite a n v).inbox = s.inbox := rfl
@[simp] theorem State.memWrite_replies (s : State) (a n : Nat) (v : Word) : (s.memWrite a n v).replies = s.replies := rfl

@[simp] theorem resetBlock_platform (s : State) : (resetBlock s).platform = s.platform := rfl
@[simp] theorem resetBlock_cmdl (s : State) : (resetBlock s).cmdl = 0 := rfl
@[simp] theorem resetBlock_status (s : State) : (resetBlock s).status = { busy := false, done := false, err := false, found := false, hviol := false } := rfl
@[simp] theorem resetBlock_errcode (s : State) : (resetBlock s).errcode = 0 := rfl
@[simp] theorem resetBlock_srcAddr (s : State) : (resetBlock s).srcAddr = 0 := rfl
@[simp] theorem resetBlock_srcLen (s : State) : (resetBlock s).srcLen = 0 := rfl
@[simp] theorem resetBlock_dstAddr (s : State) : (resetBlock s).dstAddr = 0 := rfl
@[simp] theorem resetBlock_dstLen (s : State) : (resetBlock s).dstLen = 0 := rfl
@[simp] theorem resetBlock_recAddr (s : State) : (resetBlock s).recAddr = 0 := rfl
@[simp] theorem resetBlock_recOffset (s : State) : (resetBlock s).recOffset = 0 := rfl
@[simp] theorem resetBlock_baseAddr (s : State) : (resetBlock s).baseAddr = 0 := rfl
@[simp] theorem resetBlock_familyId (s : State) : (resetBlock s).familyId = 0 := rfl
@[simp] theorem resetBlock_slotSel (s : State) : (resetBlock s).slotSel = 0 := rfl
@[simp] theorem resetBlock_pageOffset (s : State) : (resetBlock s).pageOffset = 0 := rfl
@[simp] theorem resetBlock_checksum (s : State) : (resetBlock s).checksum = 0 := rfl
@[simp] theorem resetBlock_buf (s : State) : (resetBlock s).buf = [] := rfl
@[simp] theorem resetBlock_epoch (s : State) : (resetBlock s).epoch = s.epoch + 1 := rfl
@[simp] theorem resetBlock_inbox (s : State) : (resetBlock s).inbox = s.inbox := rfl
@[simp] theorem resetBlock_replies (s : State) : (resetBlock s).replies = s.replies := rfl

@[simp] theorem State.failedWith_platform (s : State) (c : BitVec 8) : (s.failedWith c).platform = s.platform := rfl
@[simp] theorem State.failedWith_cmdl (s : State) (c : BitVec 8) : (s.failedWith c).cmdl = s.cmdl := rfl
@[simp] theorem State.failedWith_status (s : State) (c : BitVec 8) : (s.failedWith c).status = { busy := false, done := true, err := true, found := s.status.found, hviol := s.status.hviol } := rfl
@[simp] theorem State.failedWith_errcode (s : State) (c : BitVec 8) : (s.failedWith c).errcode = c := rfl
@[simp] theorem State.failedWith_srcAddr (s : State) (c : BitVec 8) : (s.failedWith c).srcAddr = s.srcAddr := rfl
@[simp] theorem State.failedWith_srcLen (s : State) (c : BitVec 8) : (s.failedWith c).srcLen = s.srcLen := rfl
@[simp] theorem State.failedWith_dstAddr (s : State) (c : BitVec 8) : (s.failedWith c).dstAddr = s.dstAddr := rfl
@[simp] theorem State.failedWith_dstLen (s : State) (c : BitVec 8) : (s.failedWith c).dstLen = s.dstLen := rfl
@[simp] theorem State.failedWith_recAddr (s : State) (c : BitVec 8) : (s.failedWith c).recAddr = s.recAddr := rfl
@[simp] theorem State.failedWith_recOffset (s : State) (c : BitVec 8) : (s.failedWith c).recOffset = s.recOffset := rfl
@[simp] theorem State.failedWith_baseAddr (s : State) (c : BitVec 8) : (s.failedWith c).baseAddr = s.baseAddr := rfl
@[simp] theorem State.failedWith_familyId (s : State) (c : BitVec 8) : (s.failedWith c).familyId = s.familyId := rfl
@[simp] theorem State.failedWith_slotSel (s : State) (c : BitVec 8) : (s.failedWith c).slotSel = s.slotSel := rfl
@[simp] theorem State.failedWith_pageOffset (s : State) (c : BitVec 8) : (s.failedWith c).pageOffset = s.pageOffset := rfl
@[simp] theorem State.failedWith_checksum (s : State) (c : BitVec 8) : (s.failedWith c).checksum = s.checksum := rfl
@[simp] theorem State.failedWith_buf (s : State) (c : BitVec 8) : (s.failedWith c).buf = s.buf := rfl
@[simp] theorem State.failedWith_epoch (s : State) (c : BitVec 8) : (s.failedWith c).epoch = s.epoch := rfl
@[simp] theorem State.failedWith_inbox (s : State) (c : BitVec 8) : (s.failedWith c).inbox = s.inbox := rfl
@[simp] theorem State.failedWith_replies (s : State) (c : BitVec 8) : (s.failedWith c).replies = s.replies := rfl

@[simp] theorem Status.launched_busy (st : Status) : st.launched.busy = true := rfl
@[simp] theorem Status.launched_done (st : Status) : st.launched.done = false := rfl
@[simp] theorem Status.launched_err (st : Status) : st.launched.err = false := rfl
@[simp] theorem Status.launched_found (st : Status) : st.launched.found = false := rfl
@[simp] theorem Status.launched_hviol (st : Status) : st.launched.hviol = st.hviol := rfl
@[simp] theorem Status.failed_busy (st : Status) : st.failed.busy = false := rfl
@[simp] theorem Status.failed_done (st : Status) : st.failed.done = true := rfl
@[simp] theorem Status.failed_err (st : Status) : st.failed.err = true := rfl
@[simp] theorem Status.failed_found (st : Status) : st.failed.found = st.found := rfl
@[simp] theorem Status.failed_hviol (st : Status) : st.failed.hviol = st.hviol := rfl
@[simp] theorem Status.violated_busy (st : Status) : st.violated.busy = st.busy := rfl
@[simp] theorem Status.violated_done (st : Status) : st.violated.done = st.done := rfl
@[simp] theorem Status.violated_err (st : Status) : st.violated.err = st.err := rfl
@[simp] theorem Status.violated_found (st : Status) : st.violated.found = st.found := rfl
@[simp] theorem Status.violated_hviol (st : Status) : st.violated.hviol = true := rfl
@[simp] theorem Status.succeeded_busy (st : Status) (b : Bool) : (st.succeeded b).busy = false := rfl
@[simp] theorem Status.succeeded_done (st : Status) (b : Bool) : (st.succeeded b).done = true := rfl
@[simp] theorem Status.succeeded_err (st : Status) (b : Bool) : (st.succeeded b).err = false := rfl
@[simp] theorem Status.succeeded_found (st : Status) (b : Bool) : (st.succeeded b).found = (b || st.found) := rfl
@[simp] theorem Status.succeeded_hviol (st : Status) (b : Bool) : (st.succeeded b).hviol = st.hviol := rfl

theorem errorEnd_eq_failedWith (s : State) (e : CmdError) : errorEnd s e = s.failedWith e.code := rfl

end Sys2Proof.Machine
end

