-- ==== Sys2Proof/Laws/Memory.lean ====
section
/-! SUPPORT. BUF: a read after a write, the bulk read of R10, and the canonical form every memory operation keeps. -/

namespace Sys2Proof.Machine

/-! The canonical form. -/

/-- Canonical means that every earlier cell has a smaller address than every later one. -/
theorem Memory.wf_iff_pairwise (m : Memory) : Memory.wf m = true ↔ m.Pairwise (fun c d => c.1 < d.1) := by
  induction m with
  | nil => simp [Memory.wf]
  | cons c m ih =>
    cases m with
    | nil => simp [Memory.wf]
    | cons d m =>
      simp only [Memory.wf, Bool.and_eq_true, decide_eq_true_eq, ih, List.pairwise_cons, List.mem_cons, forall_eq_or_imp]
      constructor
      · rintro ⟨h, hd, hm⟩
        exact ⟨⟨h, fun e he => h.trans (hd e he)⟩, hd, hm⟩
      · rintro ⟨⟨h, -⟩, hd, hm⟩
        exact ⟨h, hd, hm⟩

theorem cellsFrom_addr_mem {c : Host.Cell} :
    ∀ {a : Nat} {bs : List Byte}, c ∈ cellsFrom a bs → a ≤ c.1 ∧ c.1 < a + bs.length
  | _, [], h => by simp [cellsFrom] at h
  | a, b :: bs, h => by
    rcases List.mem_cons.1 h with rfl | h
    · simp
    · have := cellsFrom_addr_mem h
      simp only [List.length_cons]
      omega

theorem cellsFrom_pairwise : ∀ (a : Nat) (bs : List Byte), (cellsFrom a bs).Pairwise (fun c d => c.1 < d.1)
  | _, [] => List.Pairwise.nil
  | a, _ :: bs => List.pairwise_cons.2 ⟨fun _ h => (cellsFrom_addr_mem h).1, cellsFrom_pairwise (a + 1) bs⟩

/-- Writing bytes keeps the canonical form. -/
theorem writeBytes_wf {m : Memory} (h : Memory.wf m = true) (a : Nat) (bs : List Byte) :
    Memory.wf (writeBytes m a bs) = true := by
  cases bs with
  | nil => exact h
  | cons b bs =>
    rw [Memory.wf_iff_pairwise] at h ⊢
    simp only [writeBytes, List.pairwise_append, List.mem_append, List.mem_filter, decide_eq_true_eq]
    refine ⟨⟨h.filter _, cellsFrom_pairwise _ _, fun c hc d hd => ?_⟩, h.filter _, fun c hc d hd => ?_⟩
    · have := cellsFrom_addr_mem hd
      omega
    · rcases hc with hc | hc
      · have := hc.2; have := hd.2; simp only [List.length_cons] at this; omega
      · have := cellsFrom_addr_mem hc; omega

/-- Writing inside the first `n` bytes keeps every cell inside them. -/
theorem writeBytes_bounded {m : Memory} {n a : Nat} {bs : List Byte} (h : ∀ c ∈ m, c.1 < n) (hb : a + bs.length ≤ n) :
    ∀ c ∈ writeBytes m a bs, c.1 < n := by
  cases bs with
  | nil => exact h
  | cons b bs =>
    intro c hc
    simp only [writeBytes, List.mem_append, List.mem_filter] at hc
    rcases hc with (hc | hc) | hc
    · exact h c hc.1
    · have := cellsFrom_addr_mem hc; omega
    · exact h c hc.1

/-- Right after a reset BUF is canonical: nothing is written. -/
theorem reset_buf_wf (p : Config.Platform) (e : Nat) : Memory.wf (State.resetAt p e).buf = true := rfl

/-! A read after a write. -/

theorem cellAt_append (m n : Memory) (a : Nat) : cellAt (m ++ n) a = (cellAt m a).or (cellAt n a) := by
  induction m with
  | nil => rfl
  | cons c m ih => simp only [List.cons_append, cellAt]; split <;> simp [ih]

theorem cellAt_filter (m : Memory) (p : Nat → Bool) (a : Nat) :
    cellAt (m.filter fun c => p c.1) a = if p a then cellAt m a else none := by
  induction m with
  | nil => simp [cellAt]
  | cons c m ih =>
    rw [List.filter_cons]
    by_cases hc : c.1 = a
    · subst hc
      split <;> simp_all [cellAt]
    · split <;> simp [cellAt, hc, ih]

theorem cellAt_cellsFrom : ∀ (d : Nat) (bs : List Byte) (a : Nat),
    cellAt (cellsFrom d bs) a = if d ≤ a then bs[a - d]? else none
  | d, [], a => by simp [cellsFrom, cellAt]
  | d, b :: bs, a => by
    simp only [cellsFrom, cellAt, cellAt_cellsFrom (d + 1) bs a]
    by_cases h : d = a
    · subst h; simp
    · rw [if_neg h]
      by_cases h' : d + 1 ≤ a
      · rw [if_pos h', if_pos (by omega), show a - d = (a - (d + 1)) + 1 by omega, List.getElem?_cons_succ]
      · rw [if_neg h', if_neg (by omega)]

/-- A read after a write of bytes: the byte written inside the region, the old byte outside it. -/
theorem cellAt_writeBytes (m : Memory) (d : Nat) (bs : List Byte) (a : Nat) :
    cellAt (writeBytes m d bs) a =
      if d ≤ a ∧ a < d + bs.length then some (bs.getD (a - d) 0) else cellAt m a := by
  cases bs with
  | nil => rw [if_neg (by simp)]; rfl
  | cons b bs =>
    have lo := cellAt_filter m (fun x => decide (x < d)) a
    have hi := cellAt_filter m (fun x => decide (d + (b :: bs).length ≤ x)) a
    simp only [writeBytes, cellAt_append, lo, hi, cellAt_cellsFrom, decide_eq_true_eq]
    by_cases h1 : a < d
    · rw [if_pos h1, if_neg (by omega : ¬ d ≤ a), if_neg (by omega : ¬ d + (b :: bs).length ≤ a),
        if_neg (by omega : ¬ (d ≤ a ∧ _))]
      simp
    · rw [if_neg h1, if_pos (by omega : d ≤ a)]
      by_cases h2 : a < d + (b :: bs).length
      · rw [if_neg (by omega : ¬ d + (b :: bs).length ≤ a), if_pos ⟨by omega, h2⟩,
          List.getElem?_eq_getElem (by omega), List.getD_eq_getElem _ _ (by omega)]
        simp
      · rw [if_pos (by omega : d + (b :: bs).length ≤ a), if_neg (by omega : ¬ (d ≤ a ∧ _)),
          List.getElem?_eq_none (by omega)]
        simp

/-- A state whose BUF is another's with `bs` written at `d` shows exactly that. -/
theorem wroteExactly_of_buf {s t : State} {d : Nat} {bs : List Byte} (hb : t.buf = writeBytes s.buf d bs)
    (he : t.epoch = s.epoch) : WroteExactly s t d bs := by
  intro a
  simp only [State.byteAt, hb, he, cellAt_writeBytes]
  split <;> simp

/-- The success end writes its output bytes at DST_ADDR and no other byte of BUF. -/
theorem successEnd_wroteExactly (s : State) (r : Results) :
    WroteExactly s (successEnd s r) s.dstAddr.toNat (r.out.getD []) :=
  wroteExactly_of_buf rfl rfl

/-- A host write of BUF writes the little-endian bytes of the value and no other byte of BUF. -/
theorem memWrite_wroteExactly (s : State) (a n : Nat) (v : Word) :
    WroteExactly s (s.memWrite a n v) a (putLe n v.toNat) :=
  wroteExactly_of_buf rfl rfl

/-- Where BUF and the draw agree, every byte agrees. -/
theorem byteAt_congr {s t : State} (hb : t.buf = s.buf) (he : t.epoch = s.epoch) (a : Nat) : t.byteAt a = s.byteAt a := by
  simp only [State.byteAt, hb, he]

/-! The bulk read. -/

/-- The hint of the walk is right: whatever stands before it has a smaller address than what it is asked for. -/
theorem readFrom_eq (s : State) : ∀ (n : Nat) (pre hint : Memory) (a : Nat), s.buf = pre ++ hint →
    (∀ c ∈ pre, c.1 < a) → readFrom s hint a n = (List.range n).map fun k => s.byteAt (a + k)
  | 0, _, hint, a, _, _ => by cases hint <;> rfl
  | n + 1, pre, hint, a, hb, hp => by
    have shift : ((List.range (n + 1)).map fun k => s.byteAt (a + k)) =
        s.byteAt a :: (List.range n).map fun k => s.byteAt (a + 1 + k) := by
      rw [List.range_succ_eq_map, List.map_cons, List.map_map]
      refine congrArg₂ _ rfl (List.map_congr_left fun k _ => ?_)
      show s.byteAt (a + (k + 1)) = _
      congr 1; omega
    have hp' : ∀ c ∈ pre, c.1 < a + 1 := fun c hc => Nat.lt_succ_of_lt (hp c hc)
    rw [shift]
    cases hint with
    | nil => rw [readFrom, readFrom_eq s n pre [] (a + 1) hb hp']
    | cons c hint =>
      rw [readFrom]
      split
      · rename_i hc
        have hmiss : ∀ (m : Memory), (∀ e ∈ m, e.1 < a) → cellAt m a = none := by
          intro m hm
          induction m with
          | nil => rfl
          | cons e m ih =>
            have := hm e (by simp)
            rw [cellAt, if_neg (by omega), ih fun x hx => hm x (by simp [hx])]
        have hat : s.byteAt a = c.2 := by
          simp only [State.byteAt, hb, cellAt_append, hmiss pre hp, cellAt, hc]
          simp
        rw [hat, readFrom_eq s n (pre ++ [c]) hint (a + 1) (by simp [hb])]
        intro e he
        rcases List.mem_append.1 he with he | he
        · exact hp' e he
        · rw [List.mem_singleton.1 he]; omega
      · rw [readFrom_eq s n pre (c :: hint) (a + 1) hb hp']

/-- `Bytes(a, n)` is `[BUF[a], …, BUF[a+n-1]]` (R10), in every state. -/
theorem bytes_eq_map (s : State) (a n : Nat) : s.bytes a n = (List.range n).map fun k => s.byteAt (a + k) := by
  refine readFrom_eq s n (s.buf.takeWhile fun c => decide (c.1 < a)) _ a (List.takeWhile_append_dropWhile).symm ?_
  intro c hc
  simpa using List.mem_takeWhile_imp hc

@[simp] theorem length_bytes (s : State) (a n : Nat) : (s.bytes a n).length = n := by
  simp [bytes_eq_map]

@[simp] theorem length_region (s : State) (r : Region) : (s.region r).length = r.len := length_bytes _ _ _

/-- Byte `k` of a region. -/
theorem bytes_getD (s : State) (a n k : Nat) (h : k < n) : (s.bytes a n).getD k 0 = s.byteAt (a + k) := by
  rw [bytes_eq_map, List.getD_eq_getElem _ _ (by simpa using h)]
  simp

/-- Two states that show the same bytes of a region read the same byte sequence. -/
theorem bytes_congr {s t : State} {a n : Nat} (h : ∀ k < n, t.byteAt (a + k) = s.byteAt (a + k)) :
    t.bytes a n = s.bytes a n := by
  simp only [bytes_eq_map]
  exact List.map_congr_left fun k hk => h k (List.mem_range.1 hk)

/-- Dropping bytes of a region reads the rest of it. -/
theorem drop_bytes (s : State) (a n k : Nat) : (s.bytes a n).drop k = s.bytes (a + k) (n - k) := by
  apply List.ext_getElem
  · simp
  · intro i h1 h2
    simp [bytes_eq_map, Nat.add_assoc]

/-- A slice of a region is the region it covers. -/
theorem slice_bytes (s : State) (a n o k : Nat) (h : o + k ≤ n) : slice (s.bytes a n) o k = s.bytes (a + o) k := by
  apply List.ext_getElem
  · simp [length_slice]; omega
  · intro i h1 h2
    simp [slice, bytes_eq_map, Nat.add_assoc]

/-- A little-endian field inside a region is the 32-bit number at its BUF address. -/
theorem le32_bytes (s : State) (a n o : Nat) (h : o + 4 ≤ n) : le32 (s.bytes a n) o = s.le32At (a + o) := by
  rw [le32_eq _ _ (by simpa), State.le32At, bytes_getD _ _ _ _ (by omega), bytes_getD _ _ _ _ (by omega),
    bytes_getD _ _ _ _ (by omega), bytes_getD _ _ _ _ (by omega)]
  simp [Nat.add_assoc]

end Sys2Proof.Machine
end

