-- ==== Sys2Proof/Laws/Ops.lean ====
section
/-! SUPPORT. Once for every command: what its completion step can do (R48), and which states that leaves. -/

namespace Sys2Proof.Machine

/-! The region checks. -/

theorem inside_iff (r : Region) (n : Nat) : r.inside n = true ↔ r.addr + r.len ≤ n := decide_eq_true_iff

theorem overlaps_iff (r q : Region) :
    r.overlaps q = true ↔ 0 < r.len ∧ 0 < q.len ∧ r.addr < q.addr + q.len ∧ q.addr < r.addr + r.len :=
  decide_eq_true_iff

theorem inputsInside_iff (s : State) (inputs : List Region) :
    inputsInside s inputs = true ↔ ∀ r ∈ inputs, r.addr + r.len ≤ s.platform.bufBytes := by
  simp [inputsInside, inside_iff]

theorem outputAllowed_iff (s : State) (inputs : List Region) (len : Nat) :
    outputAllowed s inputs len = true ↔
      s.dstAddr.toNat + len ≤ s.platform.bufBytes ∧ ∀ r ∈ inputs, (dstRegion s len).overlaps r = false := by
  simp only [outputAllowed, Bool.and_eq_true, inside_iff, List.all_eq_true, Bool.not_eq_true']
  rfl

theorem srcInside_iff (s : State) : inputsInside s [srcRegion s] = true ↔ s.InBuf s.src s.srcN := by
  rw [inputsInside_iff]
  simp [srcRegion]

theorem srcRecInside_iff (s : State) :
    inputsInside s [srcRegion s, recRegion s] = true ↔ s.InBuf s.src s.srcN ∧ s.InBuf s.uri 1100 := by
  rw [inputsInside_iff]
  simp [srcRegion, recRegion, Config.uriBytes]

theorem outputClearOfSrc_iff (s : State) (n : Nat) :
    outputAllowed s [srcRegion s] n = true ↔ s.OutClearOfSrc n := by
  rw [outputAllowed_iff]
  simp only [List.mem_singleton, forall_eq, ← Bool.not_eq_true, overlaps_iff]
  rfl

theorem outputClearOfInputs_iff (s : State) (n : Nat) :
    outputAllowed s [srcRegion s, recRegion s] n = true ↔ s.OutClearOfInputs n := by
  rw [outputAllowed_iff]
  simp only [List.mem_cons, List.not_mem_nil, or_false, forall_eq_or_imp, forall_eq, ← Bool.not_eq_true, overlaps_iff]
  exact and_assoc.symm

/-! The shared completion. -/

/-- What a command's unit function answers on the operands it binds (R13). -/
def unitResult (s : State) : Instr → Except CmdError Results
  | .uf2Decode => outputOnly (uf2Decode (s.region (srcRegion s)))
  | .uf2Encode => outputOnly (uf2Encode (s.region (srcRegion s)) s.baseAddr s.familyId)
  | .checksum => .ok { sum := some (checksum (s.region (srcRegion s))) }
  | .locateSlot =>
    match locate (s.region (srcRegion s)) (slotId s) (slotVersion s) with
    | .error e => .error e
    | .ok o => .ok { page := some o }
  | .siUnpack => outputOnly (onePage s.srcLen.toNat (siUnpack (s.region (srcRegion s)) s.recOffset.toNat))
  | .siPack =>
    outputOnly (onePage s.srcLen.toNat
      (siPack (s.region (srcRegion s)) (s.region (recRegion s)) s.recOffset.toNat))
  | .patch =>
    match patch (s.region (srcRegion s)) (slotId s) (slotVersion s) (s.region (recRegion s)) s.recOffset.toNat with
    | .error e => .error e
    | .ok r => .ok { out := some r.image, page := some r.page, sum := some r.sum }

/-- Every command: the input regions are checked, then the unit function's answer is finished (R48, R283). -/
theorem exec_eq (i : Instr) (s : State) :
    exec i s = .next (if inputsInside s (inputRegions s i) then finish s (inputRegions s i) (unitResult s i)
      else errorEnd s .regionError) := by
  cases i <;> simp only [exec, execUf2Decode, execUf2Encode, execChecksum, execLocateSlot, execSiUnpack, execSiPack,
    execPatch, unitResult] <;> split <;> rfl

/-- A command with an input region outside BUF. -/
theorem exec_inputs_outside {i : Instr} {s : State} (h : inputsInside s (inputRegions s i) = false) :
    exec i s = .next (errorEnd s .regionError) := by
  rw [exec_eq, h]
  rfl

/-- A command whose unit function answers an error. -/
theorem exec_unit_error {i : Instr} {s : State} {e : CmdError} (h : inputsInside s (inputRegions s i) = true)
    (hu : unitResult s i = .error e) : exec i s = .next (errorEnd s e) := by
  rw [exec_eq, h, hu]
  rfl

/-- A command whose unit function succeeds and whose output region, if it has one, is allowed. -/
theorem exec_unit_ok {i : Instr} {s : State} {res : Results} (h : inputsInside s (inputRegions s i) = true)
    (hu : unitResult s i = .ok res)
    (ho : ∀ bs, res.out = some bs → outputAllowed s (inputRegions s i) bs.length = true) :
    exec i s = .next (successEnd s res) := by
  rw [exec_eq, h, hu]
  cases hout : res.out with
  | none => simp [finish, hout]
  | some bs => simp [finish, hout, ho bs hout]

/-- A command whose output region is refused. -/
theorem exec_output_refused {i : Instr} {s : State} {res : Results} {bs : List Byte}
    (h : inputsInside s (inputRegions s i) = true) (hu : unitResult s i = .ok res) (hb : res.out = some bs)
    (ho : outputAllowed s (inputRegions s i) bs.length = false) : exec i s = .next (errorEnd s .regionError) := by
  rw [exec_eq, h, hu]
  simp [finish, hb, ho]

/-- The completion ends in error and writes nothing, or succeeds with results whose output region is allowed. -/
theorem finish_cases (s : State) (inputs : List Region) (r : Except CmdError Results) :
    (∃ e, finish s inputs r = errorEnd s e) ∨
      ∃ res, r = .ok res ∧ finish s inputs r = successEnd s res ∧
        ∀ bs, res.out = some bs → outputAllowed s inputs bs.length = true := by
  match r with
  | .error e => exact .inl ⟨e, rfl⟩
  | .ok res =>
    cases hout : res.out with
    | none => exact .inr ⟨res, rfl, by simp [finish, hout], by simp [hout]⟩
    | some bs =>
      by_cases ha : outputAllowed s inputs bs.length = true
      · refine .inr ⟨res, rfl, by simp [finish, hout, ha], ?_⟩
        rintro bs' h; rw [hout] at h; cases h; exact ha
      · exact .inl ⟨.regionError, by simp [finish, hout, ha]⟩

/-- Everything a command can do: an error end, or a success end whose regions passed every check. -/
theorem exec_cases {i : Instr} {s t : State} (h : exec i s = .next t) :
    (∃ e, t = errorEnd s e) ∨
      ∃ res, inputsInside s (inputRegions s i) = true ∧ unitResult s i = .ok res ∧ t = successEnd s res ∧
        ∀ bs, res.out = some bs → outputAllowed s (inputRegions s i) bs.length = true := by
  rw [exec_eq] at h
  injection h with h
  subst h
  split
  · rename_i hin
    rcases finish_cases s (inputRegions s i) (unitResult s i) with ⟨e, he⟩ | ⟨res, hr, hf, ho⟩
    · exact .inl ⟨e, he⟩
    · exact .inr ⟨res, hin, hr, hf, ho⟩
  · exact .inl ⟨_, rfl⟩

/-- A completed command keeps BUF canonical. -/
theorem exec_buf_wf {i : Instr} {s t : State} (h : exec i s = .next t) (hw : Memory.wf s.buf = true) :
    Memory.wf t.buf = true := by
  rcases exec_cases h with ⟨e, rfl⟩ | ⟨res, -, -, rfl, -⟩
  · exact hw
  · exact writeBytes_wf hw _ _

/-- A completed command keeps every written byte inside BUF. -/
theorem exec_buf_bounded {i : Instr} {s t : State} (h : exec i s = .next t)
    (hb : ∀ c ∈ s.buf, c.1 < s.platform.bufBytes) : ∀ c ∈ t.buf, c.1 < s.platform.bufBytes := by
  rcases exec_cases h with ⟨e, rfl⟩ | ⟨res, -, -, rfl, ho⟩
  · exact hb
  · cases hout : res.out with
    | none => simpa [successEnd, hout, writeBytes] using hb
    | some bs =>
      have := ((outputAllowed_iff _ _ _).1 (ho bs hout)).1
      simpa [successEnd, hout] using writeBytes_bounded hb this

end Sys2Proof.Machine
end

