-- ==== Sys2Proof/Laws/PerInstr.lean ====
section
/-! SUPPORT. Per-instruction statements about the syntax: every command is well-formed, its word is legal, and the decoder
reads it back. -/

namespace Sys2Proof.Laws.WordOf

/-- The command's word is legal, decodes to the command, and is the word decode expects of it (R91). -/
def Statement (i : Instr) : Prop :=
  i.wf = true ∧ LegalCommand (encode i) ∧ decodeWord (encode i) = .ok i ∧
    decodeTableWord 32 (encode i).toNat = some i

theorem uf2Decode : Statement .uf2Decode := by unfold Statement; decide
theorem uf2Encode : Statement .uf2Encode := by unfold Statement; decide
theorem checksum : Statement .checksum := by unfold Statement; decide
theorem locateSlot : Statement .locateSlot := by unfold Statement; decide
theorem siUnpack : Statement .siUnpack := by unfold Statement; decide
theorem siPack : Statement .siPack := by unfold Statement; decide
theorem patch : Statement .patch := by unfold Statement; decide

end Sys2Proof.Laws.WordOf
end

