-- ==== Sys2Proof/Laws/Step.lean ====
section
/-! SUPPORT. What one step can do, by what stands at the head of the host's list. -/

namespace Sys2Proof.Machine

theorem step_nil {s : State} (h : s.inbox = []) : step s = engineTurn s := by
  simp [step, turn, h]

theorem step_cons {s : State} {e : HostEvent} {rest : List HostEvent} (h : s.inbox = e :: rest) :
    step s = hostTurn { s with inbox := rest } e := by
  simp [step, turn, h]

/-- The engine completes the command CMDL names, or ends an illegal word in error. -/
theorem engineStep_cases {s t : State} (h : engineStep s = .next t) :
    (∃ i, decodeWord s.cmdl = .ok i ∧ exec i s = .next t) ∨
      (∃ e, decodeWord s.cmdl = .error e) ∧ t = errorEnd s .illegalCommand := by
  unfold engineStep at h
  split at h
  · rename_i i hi
    exact .inl ⟨i, hi, h⟩
  · rename_i e he
    injection h with h
    exact .inr ⟨⟨e, he⟩, h.symm⟩

theorem touches_iff (base size : Nat) (a : Access) :
    touches base size a = true ↔ a.addr < base + size ∧ base < a.addr + max a.width 1 :=
  decide_eq_true_iff

/-- An ignored access: HVIOL is set and a read is answered 0. -/
theorem refuseAccess_eq (s : State) (a : Access) :
    refuseAccess s a = violate s ∨ refuseAccess s a = reply (violate s) 0 := by
  cases a <;> simp [refuseAccess]

/-- What an access of the register window can do. -/
theorem regAccess_cases (s : State) (a : Access) :
    regAccess s a = violate s ∨ (∃ v, regAccess s a = reply (violate s) v) ∨ (∃ v, regAccess s a = reply s v) ∨
      regAccess s a = s ∨ s.status.busy = false ∧ ∃ r v, regAccess s a = writeReg s v r := by
  unfold regAccess
  split
  · cases a with
    | read addr n => exact .inr (.inr (.inl ⟨_, rfl⟩))
    | write addr n v =>
      simp only [regWrite]
      split
      · exact .inl rfl
      · rename_i hb
        cases hr : regAt? (addr - s.platform.blockBase) with
        | none => exact .inr (.inr (.inr (.inl (by simp))))
        | some r => exact .inr (.inr (.inr (.inr ⟨by simpa using hb, r, v, by simp⟩)))
  · rcases refuseAccess_eq s a with h | h
    · exact .inl h
    · exact .inr (.inl ⟨0, h⟩)

/-- What an access of the BUF host port can do. -/
theorem bufAccess_cases (s : State) (a : Access) :
    bufAccess s a = violate s ∨ (∃ v, bufAccess s a = reply (violate s) v) ∨ (∃ v, bufAccess s a = reply s v) ∨
      s.status.busy = false ∧
        ∃ addr n v, bufAccess s a = s.memWrite addr n v ∧ addr + n ≤ s.platform.bufBytes := by
  unfold bufAccess
  split
  · rcases refuseAccess_eq s a with h | h
    · exact .inl h
    · exact .inr (.inl ⟨0, h⟩)
  · rename_i hc
    simp only [not_or, Nat.not_lt] at hc
    cases a with
    | read addr n => exact .inr (.inr (.inl ⟨_, rfl⟩))
    | write addr n v => exact .inr (.inr (.inr ⟨by simpa using hc.1, addr, n, v, rfl, hc.2.2⟩))

/-- What a transaction at a host address can do: an access of one of the two ports, a refusal, or nothing. -/
theorem busAccess_cases (s : State) (a : Access) :
    busAccess s a = regAccess s a ∨ busAccess s a = bufAccess s (a.fromBase s.platform.bufBase) ∨
      busAccess s a = refuseAccess s a ∨ busAccess s a = s := by
  unfold busAccess
  repeat' split
  all_goals simp

/-- While a command is in flight the BUF host port neither ends it nor changes the host's list (R29). -/
theorem bufAccess_busy {s : State} (h : s.status.busy = true) (a : Access) :
    (bufAccess s a).status.busy = true ∧ (bufAccess s a).inbox = s.inbox := by
  rcases bufAccess_cases s a with e | ⟨v, e⟩ | ⟨v, e⟩ | ⟨hb, -⟩
  · rw [e]; exact ⟨h, rfl⟩
  · rw [e]; exact ⟨h, rfl⟩
  · rw [e]; exact ⟨h, rfl⟩
  · rw [h] at hb; cases hb

/-- While a command is in flight no transaction ends it or changes the host's list (R29). -/
theorem busAccess_busy {s : State} (h : s.status.busy = true) (a : Access) :
    (busAccess s a).status.busy = true ∧ (busAccess s a).inbox = s.inbox := by
  rcases busAccess_cases s a with e | e | e | e <;> rw [e]
  · rcases regAccess_cases s a with e | ⟨v, e⟩ | ⟨v, e⟩ | e | ⟨hb, -⟩
    · rw [e]; exact ⟨h, rfl⟩
    · rw [e]; exact ⟨h, rfl⟩
    · rw [e]; exact ⟨h, rfl⟩
    · rw [e]; exact ⟨h, rfl⟩
    · rw [h] at hb; cases hb
  · exact bufAccess_busy h _
  · rcases refuseAccess_eq s a with e | e <;> rw [e] <;> exact ⟨h, rfl⟩
  · exact ⟨h, rfl⟩

/-! Runs. -/

theorem coreRun_succ (M : Host.Core) (k : Nat) {s s' : M.State} (h : M.step s = .next s') :
    M.run (k + 1) s = M.run k s' := by
  simp only [Host.Core.run, h]

/-- A run whose first step goes on is the run from there. -/
theorem run_succ (k : Nat) {s s' : State} (h : step s = .next s') : core.run (k + 1) s = core.run k s' :=
  coreRun_succ core k h

end Sys2Proof.Machine
end

