-- ==== Sys2Proof/Laws/Units.lean ====
section
/-! SUPPORT. The unit functions: for each, once, what it answers. -/

namespace Sys2Proof.Machine

/-! uf2_decode and uf2_encode. -/

theorem le32_drop (l : List Byte) (n o : Nat) : le32 (l.drop n) o = le32 l (n + o) := by simp [le32, slice]

/-- What block `j` of an image must start at: the end of block `j - 1`, an unbounded sum (R141). -/
def dueAt (img : List Byte) (j : Nat) : Option Nat :=
  if j = 0 then none else some (le32 img (512 * (j - 1) + 12) + le32 img (512 * (j - 1) + 16))

/-- Block `j` of an image follows its predecessor. -/
abbrev Follows (img : List Byte) (j : Nat) : Prop :=
  j = 0 ∨ le32 img (512 * j + 12) = le32 img (512 * (j - 1) + 12) + le32 img (512 * (j - 1) + 16)

theorem uf2Decode_eq {img : List Byte} {n : Nat} (h : img.length = 512 * n) :
    uf2Decode img = uf2Blocks (dueAt img 0) n (img.drop (512 * 0)) := by
  rw [uf2Decode, if_neg (by simp [h])]
  simp [h, dueAt]

/-- One round of uf2_decode's loop, on block `j` of the image (R140). -/
theorem uf2Blocks_succ (img : List Byte) (j n : Nat) :
    uf2Blocks (dueAt img j) (n + 1) (img.drop (512 * j)) =
      if ¬ Follows img j then .error .nonContiguous
      else if 476 < le32 img (512 * j + 16) then .error .payloadSizeRange
      else
        match uf2Blocks (dueAt img (j + 1)) n (img.drop (512 * (j + 1))) with
        | .ok out => .ok (slice (img.drop (512 * j)) 32 (le32 img (512 * j + 16)) ++ out)
        | .error e => .error e := by
  have ht : blockTarget (img.drop (512 * j)) = le32 img (512 * j + 12) := le32_drop _ _ _
  have hs : blockSize (img.drop (512 * j)) = le32 img (512 * j + 16) := le32_drop _ _ _
  have hd : dueAt img (j + 1) = some (le32 img (512 * j + 12) + le32 img (512 * j + 16)) := by simp [dueAt]
  have hf : (dueAt img j).any (fun d => le32 img (512 * j + 12) ≠ d) = true ↔ ¬ Follows img j := by
    unfold dueAt Follows
    by_cases h : j = 0 <;> simp [h]
  rw [uf2Blocks, ht, hs, List.drop_drop, hd]
  by_cases h : (dueAt img j).any (fun d => le32 img (512 * j + 12) ≠ d) = true
  · rw [if_pos h, if_pos (hf.1 h)]
  · rw [if_neg h, if_neg fun x => h (hf.2 x)]
    rfl

/-- uf2_encode of a payload it accepts (R144). -/
theorem uf2Encode_ok {p : List Byte} {base : Word} (fam : Word) (h1 : p.length % 256 = 0)
    (h2 : p.length = 0 ∨ base.toNat + 256 * (p.length / 256 - 1) ≤ 0xFFFFFFFF) :
    uf2Encode p base fam = .ok ((List.range (p.length / 256)).flatMap fun i =>
      uf2Block base fam (p.length / 256) i (slice p (256 * i) 256)) := by
  unfold uf2Encode
  simp only [Config.uf2PayloadBytes]
  rw [if_neg (by omega), if_neg (by omega)]

/-- Whatever uf2_encode answers without an error came from a payload it accepts. -/
theorem uf2Encode_inv {p img : List Byte} {base fam : Word} (h : uf2Encode p base fam = .ok img) :
    p.length % 256 = 0 ∧ (p.length = 0 ∨ base.toNat + 256 * (p.length / 256 - 1) ≤ 0xFFFFFFFF) := by
  unfold uf2Encode at h
  simp only [Config.uf2PayloadBytes] at h
  split at h
  · cases h
  · split at h
    · cases h
    · omega

theorem length_uf2Block (base fam : Word) (n i : Nat) {chunk : List Byte} (h : chunk.length = 256) :
    (uf2Block base fam n i chunk).length = 512 := by simp [uf2Block, h]

/-- The words of a block that uf2_encode writes, byte by byte (R95). -/
theorem uf2Block_words (base fam : Word) (n i : Nat) {chunk : List Byte} (h : chunk.length = 256) {k : Nat} (hk : k < 4) :
    (uf2Block base fam n i chunk).getD k 0 = (put32 0x0A324655).getD k 0 ∧
      (uf2Block base fam n i chunk).getD (4 + k) 0 = (put32 0x9E5D5157).getD k 0 ∧
      (uf2Block base fam n i chunk).getD (8 + k) 0 = (put32 0).getD k 0 ∧
      (uf2Block base fam n i chunk).getD (12 + k) 0 = (put32 (base.toNat + 256 * i)).getD k 0 ∧
      (uf2Block base fam n i chunk).getD (16 + k) 0 = (put32 256).getD k 0 ∧
      (uf2Block base fam n i chunk).getD (20 + k) 0 = (put32 i).getD k 0 ∧
      (uf2Block base fam n i chunk).getD (24 + k) 0 = (put32 n).getD k 0 ∧
      (uf2Block base fam n i chunk).getD (28 + k) 0 = (put32 fam.toNat).getD k 0 ∧
      (uf2Block base fam n i chunk).getD (508 + k) 0 = (put32 0x0AB16F30).getD k 0 := by
  unfold uf2Block
  refine ⟨?_, ?_, ?_, ?_, ?_, ?_, ?_, ?_, ?_⟩
  all_goals
    repeat (first
      | (refine (List.getD_append _ _ _ _ ?side).trans ?_; case side => (simp [h]; try omega))
      | (refine (List.getD_append_right _ _ _ _ ?side).trans ?_; case side => (simp [h]; try omega)))
    all_goals (congr 1; try simp [h])

/-- The chunk of a block that uf2_encode writes, and the zeros behind it (R95). -/
theorem uf2Block_payload (base fam : Word) (n i : Nat) {chunk : List Byte} (h : chunk.length = 256) :
    (∀ k < 256, (uf2Block base fam n i chunk).getD (32 + k) 0 = chunk.getD k 0) ∧
      ∀ k < 220, (uf2Block base fam n i chunk).getD (288 + k) 0 = 0 := by
  unfold uf2Block
  constructor
  · intro k hk
    rw [List.getD_append _ _ _ _ (by simp [h]; omega), List.getD_append _ _ _ _ (by simp [h]; omega),
      List.getD_append_right _ _ _ _ (by simp)]
    congr 1
    simp
  · intro k hk
    rw [List.getD_append _ _ _ _ (by simp [h]; omega), List.getD_append_right _ _ _ _ (by simp [h])]
    unfold zeros
    rw [List.getD_eq_getElem _ _ (by simp only [List.length_append, length_put32, h, List.length_replicate]; omega),
      List.getElem_replicate]

/-! locate. -/

/-- Page `p` of an image is a candidate (R201). -/
abbrev Candidate (img : List Byte) (sid ver p : Nat) : Prop :=
  footerSlot img (2048 * p) = sid ∧ footerVersion img (2048 * p) = ver

/-- Page `p` is what the scan of the first `n` pages picks (R202). -/
def Picked (img : List Byte) (sid ver n p : Nat) : Prop :=
  p < n ∧ Candidate img sid ver p ∧ 0 < footerSequence img (2048 * p) ∧
    (∀ q < n, Candidate img sid ver q → footerSequence img (2048 * q) ≤ footerSequence img (2048 * p)) ∧
    ∀ q < p, Candidate img sid ver q → footerSequence img (2048 * q) < footerSequence img (2048 * p)

/-- After `n` pages the scan holds no page, and every candidate had sequence number 0, or it holds the picked page. -/
theorem scan_cases (img : List Byte) (sid ver : Nat) : ∀ n,
    ((List.range n).foldl (scanPage img sid ver) { seq := 0, page := none } = { seq := 0, page := none } ∧
        ∀ q < n, Candidate img sid ver q → footerSequence img (2048 * q) = 0) ∨
      ∃ p, (List.range n).foldl (scanPage img sid ver) { seq := 0, page := none } =
          { seq := footerSequence img (2048 * p), page := some (2048 * p) } ∧ Picked img sid ver n p
  | 0 => .inl ⟨rfl, fun _ h => absurd h (Nat.not_lt_zero _)⟩
  | n + 1 => by
    rw [List.range_succ, List.foldl_append, List.foldl_cons, List.foldl_nil]
    by_cases hm : Candidate img sid ver n
    · have hs : ∀ b, scanPage img sid ver b n =
          if b.seq < footerSequence img (2048 * n) then { seq := footerSequence img (2048 * n), page := some (2048 * n) }
          else b := by
        intro b
        simp only [scanPage]
        rw [if_pos (by exact hm)]
      rw [hs]
      rcases scan_cases img sid ver n with ⟨hb, h0⟩ | ⟨p, hb, hp, hc, h1, h2, h3⟩ <;> rw [hb]
      · by_cases hlt : 0 < footerSequence img (2048 * n)
        · refine .inr ⟨n, if_pos hlt, by omega, hm, hlt, fun q hq hcq => ?_, fun q hq hcq => ?_⟩
          · rcases Nat.lt_succ_iff_lt_or_eq.1 hq with hq | rfl
            · rw [h0 q hq hcq]; omega
            · exact le_rfl
          · rw [h0 q hq hcq]; exact hlt
        · refine .inl ⟨if_neg hlt, fun q hq hcq => ?_⟩
          rcases Nat.lt_succ_iff_lt_or_eq.1 hq with hq | rfl
          · exact h0 q hq hcq
          · omega
      · by_cases hlt : footerSequence img (2048 * p) < footerSequence img (2048 * n)
        · refine .inr ⟨n, if_pos hlt, by omega, hm, by omega, fun q hq hcq => ?_, fun q hq hcq => ?_⟩
          · rcases Nat.lt_succ_iff_lt_or_eq.1 hq with hq | rfl
            · have := h2 q hq hcq; omega
            · exact le_rfl
          · have := h2 q hq hcq; omega
        · refine .inr ⟨p, if_neg hlt, by omega, hc, h1, fun q hq hcq => ?_, h3⟩
          rcases Nat.lt_succ_iff_lt_or_eq.1 hq with hq | rfl
          · exact h2 q hq hcq
          · omega
    · have hs : ∀ b, scanPage img sid ver b n = b := by
        intro b
        simp only [scanPage]
        rw [if_neg (by exact hm)]
      rw [hs]
      rcases scan_cases img sid ver n with ⟨hb, h0⟩ | ⟨p, hb, hp, hc, h1, h2, h3⟩ <;> rw [hb]
      · refine .inl ⟨rfl, fun q hq hcq => ?_⟩
        rcases Nat.lt_succ_iff_lt_or_eq.1 hq with hq | rfl
        · exact h0 q hq hcq
        · exact absurd hcq hm
      · refine .inr ⟨p, rfl, by omega, hc, h1, fun q hq hcq => ?_, h3⟩
        rcases Nat.lt_succ_iff_lt_or_eq.1 hq with hq | rfl
        · exact h2 q hq hcq
        · exact absurd hcq hm

theorem picked_unique {img : List Byte} {sid ver n p q : Nat} (hp : Picked img sid ver n p) (hq : Picked img sid ver n q) :
    p = q := by
  obtain ⟨p1, p2, -, p4, p5⟩ := hp
  obtain ⟨q1, q2, -, q4, q5⟩ := hq
  rcases Nat.lt_trichotomy p q with h | h | h
  · have := q5 p h p2; have := p4 q q1 q2; omega
  · exact h
  · have := p5 q h q2; have := q4 p p1 p2; omega

/-- locate of whole pages (R200 to R203): not resolved when every candidate has sequence number 0, else the picked page. -/
theorem locate_cases {img : List Byte} (sid ver : Nat) (h : img.length % 2048 = 0) :
    (locate img sid ver = .error .slotNotResolved ∧
        ∀ q < img.length / 2048, Candidate img sid ver q → footerSequence img (2048 * q) = 0) ∨
      ∃ p, locate img sid ver = .ok (2048 * p) ∧ Picked img sid ver (img.length / 2048) p := by
  unfold locate
  rw [if_neg (by simpa using h)]
  rcases scan_cases img sid ver (img.length / 2048) with ⟨hb, h0⟩ | ⟨p, hb, hp⟩ <;> rw [hb]
  · exact .inl ⟨rfl, h0⟩
  · exact .inr ⟨p, rfl, hp⟩

/-- locate reads nothing but the slot id, version and sequence number of each footer (R201, R183). -/
theorem locate_congr {a b : List Byte} (hl : a.length = b.length) (sid ver : Nat)
    (h : ∀ p < a.length / 2048, ∀ k, 2040 ≤ k → k < 2048 → ¬(2042 ≤ k ∧ k < 2044) →
      a.getD (2048 * p + k) 0 = b.getD (2048 * p + k) 0) : locate a sid ver = locate b sid ver := by
  have scan : ∀ n ≤ a.length / 2048, ∀ best,
      (List.range n).foldl (scanPage a sid ver) best = (List.range n).foldl (scanPage b sid ver) best := by
    intro n
    induction n with
    | zero => intro _ _; rfl
    | succ n ih =>
      intro hn best
      have hk := h n (by omega)
      have e1 : footerSlot a (2048 * n) = footerSlot b (2048 * n) := by
        simp only [footerSlot, byteOf, hk 2040 (by omega) (by omega) (by omega)]
      have e2 : footerVersion a (2048 * n) = footerVersion b (2048 * n) := by
        simp only [footerVersion, byteOf, hk 2041 (by omega) (by omega) (by omega)]
      have e3 : footerSequence a (2048 * n) = footerSequence b (2048 * n) := by
        rw [footerSequence, footerSequence, le32_eq _ _ (by omega), le32_eq _ _ (by omega)]
        simp only [Nat.add_assoc]
        rw [hk 2044 (by omega) (by omega) (by omega), hk (2044 + 1) (by omega) (by omega) (by omega),
          hk (2044 + 2) (by omega) (by omega) (by omega), hk (2044 + 3) (by omega) (by omega) (by omega)]
      rw [List.range_succ, List.foldl_append, List.foldl_append, ih (by omega)]
      simp only [List.foldl_cons, List.foldl_nil, scanPage, e1, e2, e3]
  unfold locate
  rw [hl, scan (b.length / 2048) (by rw [hl])]

/-! si_unpack, si_pack and patch. -/

/-- The eight note words of a record. -/
def noteWords (r : List Byte) : List Byte := (List.range 8).flatMap (noteWord r)

theorem length_noteWords (r : List Byte) : (noteWords r).length = 32 := by simp [noteWords, noteWord]

theorem noteWords_getD (r : List Byte) {k j : Nat} (hk : k < 8) (hj : j < 4) :
    (noteWords r).getD (4 * k + j) 0 = (noteWord r k).getD j 0 :=
  pieces_getD 8 (fun i _ => by simp [noteWord]) k hk j hj

/-- The three shared fields of a record are its first 1060 bytes (R111). -/
theorem shared_fields {s : List Byte} {o : Nat} (h : o + 1072 ≤ s.length) :
    slice (slice s o 1072) 0 1024 ++ slice (slice s o 1072) 1024 32 ++ slice (slice s o 1072) 1056 4 = slice s o 1060 := by
  have l1 : (slice (slice s o 1072) 0 1024).length = 1024 := by rw [length_slice, length_slice]; omega
  have l2 : (slice (slice s o 1072) 1024 32).length = 32 := by rw [length_slice, length_slice]; omega
  have l3 : (slice (slice s o 1072) 1056 4).length = 4 := by rw [length_slice, length_slice]; omega
  have field : ∀ o' n' k, o' ≤ k → k < o' + n' → o' + n' ≤ 1072 →
      (slice (slice s o 1072) o' n').getD (k - o') 0 = s.getD (o + k) 0 := by
    intro o' n' k h1 h2 h3
    rw [slice_getD _ _ _ _ (by omega), slice_getD _ _ _ _ (by omega), show o + (o' + (k - o')) = o + k by omega]
  apply bytes_ext
  · rw [List.length_append, List.length_append, l1, l2, l3, length_slice]; omega
  · intro k hk
    have hk : k < 1060 := by rw [List.length_append, List.length_append] at hk; omega
    rw [slice_getD _ _ _ _ hk]
    by_cases c1 : k < 1024
    · rw [List.getD_append _ _ _ _ (by rw [List.length_append]; omega), List.getD_append _ _ _ _ (by omega)]
      exact field 0 1024 k (by omega) (by omega) (by omega)
    · by_cases c2 : k < 1056
      · rw [List.getD_append _ _ _ _ (by rw [List.length_append]; omega), List.getD_append_right _ _ _ _ (by omega), l1]
        exact field 1024 32 k (by omega) (by omega) (by omega)
      · rw [List.getD_append_right _ _ _ _ (by rw [List.length_append]; omega), List.length_append, l1, l2]
        exact field 1056 4 k (by omega) (by omega) (by omega)

/-- si_unpack of a page that holds the record (R230). -/
theorem siUnpack_ok {page : List Byte} {off : Nat} (hl : off + 1072 ≤ page.length) (ho : off ≤ 968) :
    siUnpack page off = .ok (slice page off 1060 ++ noteWords (slice page off 1072) ++
      put32 (byteOf (slice page off 1072) 1068) ++ put32 (byteOf (slice page off 1072) 1069)) := by
  unfold siUnpack
  rw [if_neg (by show ¬ 968 < off; omega), ← shared_fields hl]
  rfl

/-- Byte `k` of an unpacked record image (R110). -/
theorem uri_getD {shared notes pitched loop : List Byte} (h1 : shared.length = 1060) (h2 : notes.length = 32)
    (h3 : pitched.length = 4) (k : Nat) :
    (shared ++ notes ++ pitched ++ loop).getD k 0 =
      if k < 1060 then shared.getD k 0 else if k < 1092 then notes.getD (k - 1060) 0
      else if k < 1096 then pitched.getD (k - 1092) 0 else loop.getD (k - 1096) 0 := by
  simp only [List.getD_eq_getElem?_getD, List.getElem?_append, List.length_append, h1, h2, h3]
  repeat' split
  all_goals first | rfl | omega

theorem siPack_ok {page uri : List Byte} {off : Nat} (ho : off ≤ 968) :
    siPack page uri off = .ok (splice page off (uri.take 1060)) := by
  unfold siPack
  rw [if_neg (by show ¬ 968 < off; omega)]

/-- patch of an image in which page `p` is located (R234): the page, the checksum of its new body, and every byte of the new
image. -/
theorem patch_ok {img uri : List Byte} {sid ver off p : Nat} (hl : img.length % 2048 = 0) (hu : 1060 ≤ uri.length)
    (ho : off ≤ 968) (hp : p < img.length / 2048) (hloc : locate img sid ver = .ok (2048 * p)) :
    ∃ r, patch img sid ver uri off = .ok r ∧ r.page = 2048 * p ∧ r.image.length = img.length ∧
      r.sum = checksum ((r.image.drop (2048 * p)).take 2040) ∧
      ∀ k < img.length, r.image.getD k 0 =
        if 2048 * p + off ≤ k ∧ k < 2048 * p + off + 1060 then uri.getD (k - (2048 * p + off)) 0
        else if 2048 * p + 2042 ≤ k ∧ k < 2048 * p + 2044 then (put16 r.sum).getD (k - (2048 * p + 2042)) 0
        else img.getD k 0 := by
  unfold patch
  rw [if_neg (by simpa using hl), if_neg (by show ¬ 968 < off; omega), hloc]
  simp only [siPack_ok ho, Config.pageBytes, Config.pageBodyBytes]
  have lp : (slice img (2048 * p) 2048).length = 2048 := by rw [length_slice]; omega
  have lt : (uri.take 1060).length = 1060 := by rw [List.length_take]; omega
  have h1 : off + (uri.take 1060).length ≤ (slice img (2048 * p) 2048).length := by omega
  have l1 : (splice (slice img (2048 * p) 2048) off (uri.take 1060)).length = 2048 := by rw [length_splice _ _ _ h1, lp]
  have g1 := fun k => splice_getD (slice img (2048 * p) 2048) off (uri.take 1060) k h1
  generalize splice (slice img (2048 * p) 2048) off (uri.take 1060) = pg at *
  have h2 : 2042 + (put16 (checksum (pg.take 2040))).length ≤ pg.length := by rw [length_put16]; omega
  have l2 : (splice pg 2042 (put16 (checksum (pg.take 2040)))).length = 2048 := by rw [length_splice _ _ _ h2, l1]
  have g2 := fun k => splice_getD pg 2042 (put16 (checksum (pg.take 2040))) k h2
  have h3 : 2048 * p + (splice pg 2042 (put16 (checksum (pg.take 2040)))).length ≤ img.length := by omega
  refine ⟨_, rfl, rfl, length_splice _ _ _ h3, ?_, ?_⟩
  · simp only
    congr 1
    apply bytes_ext
    · simp only [List.length_take, List.length_drop, length_splice _ _ _ h3]; omega
    · intro k hk
      have hk : k < 2040 := by rw [List.length_take] at hk; omega
      rw [take_getD _ _ _ hk, take_getD _ _ _ hk, drop_getD, splice_getD _ _ _ _ h3, if_pos (by omega),
        show 2048 * p + k - 2048 * p = k by omega, g2, if_neg (by omega)]
  · intro k hk
    simp only
    rw [splice_getD _ _ _ _ h3, l2]
    by_cases hin : 2048 * p ≤ k ∧ k < 2048 * p + 2048
    · rw [if_pos hin, g2, length_put16]
      by_cases c2 : 2042 ≤ k - 2048 * p ∧ k - 2048 * p < 2042 + 2
      · rw [if_pos c2, if_neg (by omega), if_pos (by omega), show k - 2048 * p - 2042 = k - (2048 * p + 2042) by omega]
      · rw [if_neg c2, g1, lt]
        by_cases c1 : off ≤ k - 2048 * p ∧ k - 2048 * p < off + 1060
        · rw [if_pos c1, if_pos (by omega), take_getD _ _ _ (by omega),
            show k - 2048 * p - off = k - (2048 * p + off) by omega]
        · rw [if_neg c1, if_neg (by omega), if_neg (by omega), slice_getD _ _ _ _ (by omega),
            show 2048 * p + (k - 2048 * p) = k by omega]
    · rw [if_neg hin, if_neg (by omega), if_neg (by omega)]

end Sys2Proof.Machine
end

