-- ==== Sys2Proof/Tests/Slice0.lean ====
section
/-! SUPPORT. Tests. Expected values are those of spec/95_test_vectors.md (cited as V-…) or are worked out by hand from the
rule cited; the theorems named `test_hyp_…` are the witnesses of the obligations' hypotheses. -/

namespace Sys2Proof.Tests

open Sys2Proof.Machine

/-- A machine as State.reset leaves it, but with byte runs written into BUF. -/
def withBuf (runs : List (Nat × List Byte)) : State :=
  { State.reset with buf := runs.foldl (fun m r => writeBytes m r.1 r.2) [] }

/-- The state an outcome goes on in. -/
def next? : Host.Outcome State Fault Refusal → Option State
  | .next s => some s
  | .fault _ => none
  | .refused _ => none

/-- What a step on `i`, placed as the first command, leaves of STATUS, ERRCODE, DST_LEN, PAGE_OFFSET and CHECKSUM. -/
def results (i : Instr) (s : State) : Option (Word × BitVec 8 × Word × Word × BitVec 16) :=
  (next? (step (s.withFetchWord 32 (encode i).toNat))).map fun t =>
    (t.status.toWord, t.errcode, t.dstLen, t.pageOffset, t.checksum)

/-- The BUF bytes (a, n) after that step. -/
def bytesAfter (i : Instr) (s : State) (a n : Nat) : Option (List Byte) :=
  (next? (step (s.withFetchWord 32 (encode i).toNat))).map fun t => t.bytes a n

/-- A result that is no error and passes a check. -/
def okAnd {α : Type} (x : Except CmdError α) (p : α → Bool) : Bool :=
  match x with
  | .error _ => false
  | .ok a => p a

theorem exists_of_okAnd {α : Type} {x : Except CmdError α} {p : α → Bool} (h : okAnd x p = true) :
    ∃ a, x = .ok a ∧ p a = true := by
  cases x with
  | error e => exact nomatch h
  | ok a => exact ⟨a, rfl, h⟩

theorem exists_of_next? {o : Host.Outcome State Fault Refusal} (h : (next? o).isSome = true) : ∃ t, o = .next t := by
  cases o with
  | next t => exact ⟨t, rfl⟩
  | fault r => exact nomatch h
  | refused r => exact nomatch h

/-- `s` with `e` as the host's only pending entry. -/
def pending (s : State) (e : HostEvent) : State := { s with inbox := [e] }

/-! ## Well-formedness: an ill-formed term for each check -/

theorem test_wf_platform : Config.examplePlatform.Wf := by decide
theorem test_wf_platform_empty_buf : ¬ Config.Platform.Wf { bufBytes := 0, blockBase := 0, bufBase := 64 } := by decide
theorem test_wf_platform_buf_too_large : ¬ Config.Platform.Wf { bufBytes := 2 ^ 32 + 1, blockBase := 0, bufBase := 64 } := by
  decide
theorem test_wf_platform_unaligned_window : ¬ Config.Platform.Wf { bufBytes := 16, blockBase := 32, bufBase := 256 } := by
  decide
theorem test_wf_platform_windows_overlap : ¬ Config.Platform.Wf { bufBytes := 16, blockBase := 64, bufBase := 127 } := by
  decide
theorem test_wf_platform_windows_adjacent :
    Config.Platform.Wf { bufBytes := 64, blockBase := 64, bufBase := 0 } ∧
      Config.Platform.Wf { bufBytes := 2 ^ 32, blockBase := 0, bufBase := 64 } := by decide
theorem test_wf_command_zero : ¬ LegalCommand 0x00000000 := by decide
theorem test_wf_command_eight : ¬ LegalCommand 0x00000008 := by decide
theorem test_wf_command_high_bits : ¬ LegalCommand 0x00000101 := by decide
theorem test_wf_memory_unsorted : Memory.wf [(3, 0), (2, 0)] = false ∧ Memory.wf [(3, 0), (3, 0)] = false := by decide

/-! ## Decoding (R90 to R92) -/

theorem test_decode_opcode_without_reserved_bits :
    decodeWord 0b00000000_00000000_00000001_00000011#32 = .error (.reservedBits 0x103#32) := by decide
theorem test_decode_truncated : decodeBytes [0x03, 0x00, 0x00] = .error (.truncated 3) := by decide
theorem test_decode_bytes_in_order : decodeBytes [0x07, 0x00, 0x00, 0x00, 0xAA] = .ok (.patch, [0xAA]) := by decide
theorem test_decode_last_opcode_rejected : decodeWord 0b00000000_00000000_00000000_11111111#32 = .error (.reservedOpcode 255) := by
  decide
theorem test_table_word : decodeTableWord 32 0x00000005 = some .siUnpack ∧ decodeTableWord 32 0x00000009 = none := by decide

/-! ## Machines the tests share -/

/-- V-UF2-15: block 0 ends at 2^32, block 1 starts at 0. -/
def uf2v15 : State :=
  { withBuf [(0, zeros 1024), (12, [0, 0xFF, 0xFF, 0xFF, 0, 1, 0, 0]), (524, [0, 0, 0, 0, 0, 1, 0, 0])] with
    srcLen := 1024
    dstAddr := 0x400 }

/-- V-RS-3 and V-RS-8; no command reads a page's body to locate it, so the footer is all that is written. -/
def oneFooter : State :=
  { withBuf [(2040, [9, 0, 0, 0, 1, 0, 0, 0])] with srcLen := 2048, slotSel := 9 }

/-- The footers of V-RS-1's pages. -/
def fivePages : State :=
  { withBuf [(2040, [5, 1, 0, 0, 3, 0, 0, 0]), (4088, [5, 1, 0, 0, 7, 0, 0, 0]), (6136, [6, 1, 0, 0, 100, 0, 0, 0]),
      (8184, [5, 1, 0, 0, 5, 0, 0, 0]), (10232, [5, 2, 0, 0, 200, 0, 0, 0])] with
    srcLen := 10240
    slotSel := 0x0105 }

/-- The zero page page(0x28, 1, 2), patched with a zero URI: the checksum of the new body is V-CK-4's 0x57BB. -/
def patchedPage : List Byte := splice (zeros 2048) 2040 [0x28, 1, 0, 0, 2, 0, 0, 0]

/-! ## The host's side -/

/-- V-IL-1. -/
theorem test_illegal_word :
    (next? (step (State.reset.withFetchWord 32 0x80000003))).map (fun t => (t.status.toWord, t.errcode, t.buf)) =
      some (0x6, 12, []) := by decide

/-- V-LN-1: the write of CMD and then a read of STATUS, by host addresses. -/
theorem test_launch_reads_busy :
    (next? (core.run 2 (State.reset.withHostProgram [.cmd .checksum, .rd .status]))).map (·.replies) = some [0x1] := by
  decide

/-- V-HV-1, V-HV-2, V-HV-3. -/
theorem test_slot_sel_low_half :
    (next? (core.run 2 (State.reset.withHostProgram [.wr .slotSel 0xFFFF0107, .rd .slotSel]))).map (·.replies) =
      some [0x107] := by decide
theorem test_half_word_register_access :
    (next? (step (pending State.reset (.bus (.read 0x0C 2))))).map (fun t => (t.replies, t.status.hviol)) =
      some ([0], true) := by decide
theorem test_word_past_buf_end :
    (next? (step (pending State.reset (.bus (.read (0x10000 + 0xFFFE) 4))))).map (fun t => (t.replies, t.status.hviol)) =
      some ([0], true) := by decide

/-- P4 with the completion after the write: the word the poll ends on, SRC_LEN and CHECKSUM at the end. -/
theorem test_write_before_completion :
    (next? (core.run 4 ({ withBuf [(0x100, [1, 2, 3])] with srcAddr := 0x100, srcLen := 3 }.withHostProgram
      [.cmd .checksum, .wr .srcLen 5, .poll]))).map (fun t => (t.replies, t.srcLen, t.checksum)) =
      some ([0x12], 3, 0xD81F) := by decide

/-! ## Witnesses: for each obligation with hypotheses, states and operands that meet them -/

/-- A CHECKSUM in flight. -/
def inFlight : State := launch { withBuf [(0, [1, 2])] with srcLen := 2 } 3

theorem test_hyp_bytes_decode : decodeBytes [0x06, 0, 0, 0, 1, 2] = .ok (.siPack, [1, 2]) := by decide

/-- IllegalWordEndsInError: both sides of the legal range, and the lowest reserved bit. -/
theorem test_hyp_illegal_words :
    (0x00000000#32).extractLsb' 0 8 = 0#8 ∧ 8 ≤ ((0x00000008#32).extractLsb' 0 8).toNat ∧
      (0x00000101#32).extractLsb' 8 24 ≠ 0#24 ∧ State.reset.status.busy = false ∧
      (launch State.reset 0x00000008).cmdl = 0x00000008#32 := by decide

/-- StepRunsDecodedCommand, BusyWindow, ResultsReadZeroWhileBusy. -/
theorem test_hyp_in_flight :
    inFlight.status.busy = true ∧ decodeWord inFlight.cmdl = .ok .checksum ∧ inFlight.inbox = [] ∧
      (pending inFlight .engineTurn).inbox = .engineTurn :: [] ∧ (pending inFlight .poll).inbox = .poll :: [] ∧
      inFlight.platform.Wf := by decide

/-- LaunchedCommandCompletes: no entry before the engine's turn and a reset right behind it, a poll, and no entry at all. -/
theorem test_hyp_completes :
    (let s := { inFlight with inbox := [.bus (.read 4 4), .engineTurn, .reset] }
     s.status.busy = true ∧ .reset ∉ s.beforeEngine ∧ s.beforeEngine.length = 1) ∧
      .reset ∉ (pending inFlight .poll).beforeEngine ∧ .reset ∉ inFlight.beforeEngine := by decide

/-- IdleEngineDoesNothing, LaunchEffect, PollEndsWhenIdle, RegisterWindowWrites, ResetEvent. -/
theorem test_hyp_idle :
    State.reset.status.busy = false ∧ State.reset.inbox = [] ∧
      (pending State.reset .engineTurn).inbox = .engineTurn :: [] ∧
      (pending State.reset .poll).inbox = .poll :: [] ∧ (pending inFlight .reset).inbox = .reset :: [] := by decide

/-- RegisterWindowAccess: the first and the last word, and the accesses just beside the rule. -/
theorem test_hyp_window_access :
    (pending State.reset (.bus (.read (0 + 4 * 0) 4))).inbox = .bus (.read (State.reset.platform.blockBase + 4 * 0) 4) :: [] ∧
      (pending State.reset (.bus (.write (0 + 4 * 15) 4 7))).inbox =
        .bus (.write (State.reset.platform.blockBase + 4 * 15) 4 7) :: [] ∧
      State.reset.platform.blockBase ≤ 63 ∧ 63 < State.reset.platform.blockBase + 64 ∧ ¬(1 = 4 ∧ 63 % 4 = 0) ∧
      State.reset.platform.blockBase ≤ 1 ∧ ¬(4 = 4 ∧ 1 % 4 = 0) ∧ State.reset.platform.Wf := by decide

/-- RegisterWindowWrites: its reserved and read-only offsets. -/
theorem test_hyp_readonly_offsets : 0x04 ∈ [0x04, 0x08, 0x18, 0x30, 0x34, 0x38, 0x3C] ∧ 0x3C ∈ [0x04, 0x08, 0x18, 0x30, 0x34, 0x38, 0x3C] := by
  decide

/-- BufHostPort: the last word inside, and the three ways out; BufWindowRouting: the last byte. -/
theorem test_hyp_buf_port :
    State.reset.status.busy = false ∧ 0xFFFC + 4 ≤ State.reset.platform.bufBytes ∧
      State.reset.platform.bufBytes < 0xFFFD + 4 ∧ ¬(3 = 1 ∨ 3 = 2 ∨ 3 = 4) ∧ inFlight.status.busy = true ∧
      (pending State.reset (.bufPort (.read 0xFFFC 4))).inbox = .bufPort (.read 0xFFFC 4) :: [] ∧
      (pending State.reset (.bufPort (.write 0xFFFC 4 9))).inbox = .bufPort (.write 0xFFFC 4 9) :: [] ∧
      State.reset.platform.Wf ∧ 0xFFFF < State.reset.platform.bufBytes := by decide

/-- HostViolationOnlySetsHviol: a violating write while busy, and a step that keeps HVIOL. -/
theorem test_hyp_host_violation :
    ((pending inFlight (.bus (.write 0x10 4 5))).status.hviol = false ∧
      (next? (step (pending inFlight (.bus (.write 0x10 4 5))))).map (·.status.hviol) = some true) ∧
      ((pending (violate State.reset) .poll).status.hviol = true ∧
        (next? (step (pending (violate State.reset) .poll))).isSome = true) := by decide

/-- OperandRegistersChangeOnlyByHost, and StepKeepsInvariant's second hypothesis: a step of the engine. -/
theorem test_hyp_engine_step :
    (∃ t, step inFlight = .next t) ∧ (∀ a rest, inFlight.inbox ≠ .bus a :: rest) ∧
      ∀ rest, inFlight.inbox ≠ .reset :: rest :=
  have hnil : inFlight.inbox = [] := by decide
  ⟨exists_of_next? (by decide), fun _ _ h => (by rw [hnil] at h; cases h), fun _ h => (by rw [hnil] at h; cases h)⟩

/-- StepKeepsInvariant, ResultsReadZeroWhileBusy, FailedCommandWritesNothing: a command in flight meets the invariant. -/
theorem test_hyp_invariant_in_flight : inFlight.Inv := by constructor <;> decide

/-- FailedCommandWritesNothing: a command in flight that meets the invariant and ends in error. -/
theorem test_hyp_failed_command :
    (launch State.reset 7).Inv ∧ (launch State.reset 7).status.busy = true ∧
      (next? (exec .patch (launch State.reset 7))).map (·.status.err) = some true :=
  ⟨by constructor <;> decide, by decide, by decide⟩

/-- Uf2DecodeCompletes: a payload of the greatest size, then an empty one, the output right behind the input; and no block. -/
def decodeCase : State :=
  { withBuf [(12, [0, 0, 0, 0, 0xDC, 1, 0, 0]), (524, [0xDC, 1, 0, 0, 0, 0, 0, 0])] with srcLen := 1024, dstAddr := 1024 }

theorem test_hyp_uf2Decode : decodeCase.Uf2DecodeReady ∧ State.reset.Uf2DecodeReady := by decide

/-- Uf2DecodeErrors, clause by clause. -/
theorem test_hyp_uf2Decode_outside : ¬ { State.reset with srcAddr := 0xFFFF, srcLen := 2 }.InBuf 0xFFFF 2 := by decide
theorem test_hyp_uf2Decode_length :
    { State.reset with srcLen := 513 }.InBuf 0 513 ∧ { State.reset with srcLen := 513 }.srcN % 512 ≠ 0 := by decide
theorem test_hyp_uf2Decode_blocks :
    (1 < uf2v15.srcN / 512 ∧ (∀ i < 1, uf2v15.GoodBlock i) ∧ ¬ uf2v15.Contiguous 1) ∧
      (let s := { withBuf [(12, [0, 0, 0, 0, 0xDD, 1, 0, 0])] with srcLen := 512 }
       0 < s.srcN / 512 ∧ (∀ i < 0, s.GoodBlock i) ∧ s.Contiguous 0 ∧ 476 < s.blockSz 0) := by decide +kernel
theorem test_hyp_uf2Decode_output :
    (∀ j < decodeCase.srcN / 512, decodeCase.GoodBlock j) ∧
      ¬ { decodeCase with dstAddr := 1023 }.OutClearOfSrc (decodeCase.blockAt 2) ∧
      ¬ { decodeCase with dstAddr := 0x10000 - 475 }.OutClearOfSrc (decodeCase.blockAt 2) := by decide

/-- Uf2EncodeCompletes: the last target address that fits, and no chunk. -/
theorem test_hyp_uf2Encode :
    { State.reset with srcLen := 512, dstAddr := 512, baseAddr := 0xFFFFFEFF }.Uf2EncodeReady ∧
      State.reset.Uf2EncodeReady := by decide

/-- Uf2EncodeErrors, clause by clause. -/
theorem test_hyp_uf2Encode_errors :
    (¬ { State.reset with srcAddr := 0xFFFF, srcLen := 2 }.InBuf 0xFFFF 2) ∧
      (State.reset.InBuf 0 257 ∧ { State.reset with srcLen := 257 }.srcN % 256 ≠ 0) ∧
      (let s := { State.reset with srcLen := 512, dstAddr := 512, baseAddr := 0xFFFFFF00 }
       s.InBuf s.src s.srcN ∧ s.srcN % 256 = 0 ∧ 0 < s.srcN ∧ 0xFFFFFFFF < s.baseAddr.toNat + 256 * (s.srcN / 256 - 1)) ∧
      (let s := { State.reset with srcLen := 512, dstAddr := 511 }
       s.InBuf s.src s.srcN ∧ s.srcN % 256 = 0 ∧ s.baseAddr.toNat + 256 * (s.srcN / 256 - 1) ≤ 0xFFFFFFFF ∧
         ¬ s.OutClearOfSrc (2 * s.srcN)) := by decide

/-- Uf2RoundTrip: the highest base address for two chunks, and the empty payload. -/
theorem test_hyp_round_trip :
    ((zeros 512).length % 256 = 0 ∧ (0xFFFFFEFF#32).toNat + 256 * ((zeros 512).length / 256 - 1) ≤ 0xFFFFFFFF) ∧
      ([] : List Byte).length = 0 := by decide +kernel

/-- Uf2Perturbation on V-UF2-8's last variant (two blocks) and V-UF2-9's first (one block). -/
theorem test_hyp_perturbation_two :
    1 < (zeros 512).length / 256 ∧ 2 ≤ (zeros 512).length / 256 ∧
      okAnd (uf2Encode (zeros 512) 0x2000 7) (fun img => decide ((0x2000#32).toNat ≠ le32 img (512 * 1 + 12))) = true := by
  decide +kernel
theorem test_hyp_perturbation_one :
    0 < (zeros 256).length / 256 ∧ (zeros 256).length / 256 = 1 ∧
      okAnd (uf2Encode (zeros 256) 0x10000000 7)
        (fun img => decide ((0x10000001#32).toNat ≠ le32 img (512 * 0 + 12))) = true := by
  decide +kernel

/-- DecodeOutputBound: an image that encode made decodes. -/
theorem test_hyp_decode_bound :
    okAnd (uf2Encode (zeros 256) 0 0) (fun img => okAnd (uf2Decode img) fun out => decide (out.length = 256)) = true := by
  decide +kernel

/-- ChecksumCommand: the region that ends at BUF's end, and the one that passes it. -/
theorem test_hyp_checksum :
    State.reset.InBuf 0xFFFE 2 ∧ ¬ State.reset.InBuf 0xFFFF 2 := by decide

/-- ChecksumSensitivity: the ends of the range of the compensating change. -/
theorem test_hyp_checksum_sensitivity :
    (1#8) ≠ 2#8 ∧ (254#8).toNat + 1 < 256 ∧ 23 ≤ (23#8).toNat := by decide

/-- LocateSlotResolves: V-RS-1, and page 0 with sequence number 1 (V-RS-3). -/
theorem test_hyp_locate : fivePages.LocateReady 1 := by decide
theorem test_hyp_locate_page_zero :
    oneFooter.LocateReady 0 := by decide

/-- LocateSlotErrors: V-RS-7, V-RS-8, V-RS-2. -/
theorem test_hyp_locate_errors :
    (State.reset.InBuf 0 2047 ∧ { State.reset with srcLen := 2047 }.srcN % 2048 ≠ 0) ∧ State.reset.NoneResolves ∧
      (let s := { fivePages with slotSel := 0x0305 }
       s.InBuf s.src s.srcN ∧ s.srcN % 2048 = 0 ∧ s.NoneResolves) := by decide

/-- LocateDecided: an image for each of its two ends. -/
theorem test_hyp_locate_decided :
    (fivePages.InBuf fivePages.src fivePages.srcN ∧ fivePages.srcN % 2048 = 0 ∧ fivePages.Resolves 1) ∧
      (State.reset.InBuf State.reset.src State.reset.srcN ∧ State.reset.srcN % 2048 = 0 ∧ State.reset.NoneResolves) := by
  decide

/-- SiUnpackCompletes: the greatest offset, and an output that ends where BUF ends. -/
theorem test_hyp_siUnpack :
    { State.reset with srcLen := 2048, dstAddr := 2048, recOffset := 968 }.SiUnpackReady ∧
      { State.reset with srcLen := 2048, dstAddr := 0x10000 - 1100 }.SiUnpackReady := by decide

/-- SiUnpackErrors, clause by clause. -/
theorem test_hyp_siUnpack_errors :
    (State.reset.InBuf 0 2047 ∧ { State.reset with srcLen := 2047 }.srcN ≠ 2048) ∧
      (let s := { State.reset with srcLen := 2048, recOffset := 969 }
       s.InBuf s.src s.srcN ∧ s.srcN = 2048 ∧ 968 < s.off) ∧
      (let s := { State.reset with srcLen := 2048, dstAddr := 2047, recOffset := 968 }
       s.InBuf s.src s.srcN ∧ s.srcN = 2048 ∧ s.off ≤ 968 ∧ ¬ s.OutClearOfSrc 1100) := by decide

/-- SiPackCompletes: the two inputs overlap (V-SI-7), the output touches both and meets neither. -/
theorem test_hyp_siPack :
    { State.reset with srcLen := 2048, recAddr := 948, dstAddr := 2048, recOffset := 968 }.SiPackReady := by decide

/-- SiPackErrors, clause by clause. -/
theorem test_hyp_siPack_errors :
    (¬ State.reset.InBuf (0x10000 - 1099) 1100) ∧
      (let s := { State.reset with srcLen := 2047, recAddr := 0x10000 - 1100 }
       s.InBuf s.src s.srcN ∧ s.InBuf s.uri 1100 ∧ s.srcN ≠ 2048) ∧
      (let s := { State.reset with srcLen := 2048, recOffset := 969 }
       s.InBuf s.src s.srcN ∧ s.InBuf s.uri 1100 ∧ s.srcN = 2048 ∧ 968 < s.off) ∧
      (let s := { State.reset with srcLen := 2048, recAddr := 0x1000, dstAddr := 0x1000 + 1099, recOffset := 968 }
       s.InBuf s.src s.srcN ∧ s.InBuf s.uri 1100 ∧ s.srcN = 2048 ∧ s.off ≤ 968 ∧ ¬ s.OutClearOfInputs 2048) := by decide

/-- UnpackAfterPack: the greatest offset. -/
theorem test_hyp_unpack_after_pack : (zeros 2048).length = 2048 ∧ (zeros 1100).length = 1100 ∧ 968 ≤ 968 := by
  decide +kernel

/-- PatchCompletes. -/
theorem test_hyp_patch :
    { withBuf [(2040, [0x28, 1, 0, 0, 2, 0, 0, 0])] with
      srcLen := 2048, recAddr := 0, dstAddr := 2048, recOffset := 968, slotSel := 0x0128 }.PatchReady 0 := by decide

/-- PatchErrors, clause by clause. -/
theorem test_hyp_patch_errors :
    (let s := { State.reset with srcLen := 2047 }
     s.InBuf s.src s.srcN ∧ s.InBuf s.uri 1100 ∧ s.srcN % 2048 ≠ 0) ∧
      (let s := { State.reset with srcLen := 2048, recOffset := 969 }
       s.InBuf s.src s.srcN ∧ s.InBuf s.uri 1100 ∧ s.srcN % 2048 = 0 ∧ 968 < s.off) ∧
      (State.reset.InBuf 0 0 ∧ State.reset.InBuf State.reset.uri 1100 ∧ State.reset.off ≤ 968 ∧ State.reset.NoneResolves) ∧
      (let s := { withBuf [(2040, [0x28, 1, 0, 0, 2, 0, 0, 0])] with srcLen := 2048, dstAddr := 2047, slotSel := 0x0128 }
       s.InBuf s.src s.srcN ∧ s.InBuf s.uri 1100 ∧ s.srcN % 2048 = 0 ∧ s.off ≤ 968 ∧ s.Resolves 0 ∧
         ¬ s.OutClearOfInputs s.srcN) := by decide

/-- PatchIdempotent (with test_patch_page) and StoredChecksumIgnored: one page that resolves. -/
theorem test_hyp_patch_functions :
    (zeros 1100).length = 1100 ∧ 0 < patchedPage.length / 2048 ∧ patchedPage.length = 2048 := by decide +kernel

/-- StoringCommandsFrame, NonStoringCommandsFrame, CommandEndCodes: commands that answer a next state, with and without
an error. -/
theorem test_hyp_frames :
    Instr.patch ∈ [Instr.uf2Decode, .uf2Encode, .siUnpack, .siPack, .patch] ∧ State.reset.platform.Wf ∧
      (next? (exec .uf2Decode State.reset)).map (·.status.err) = some false ∧
      (next? (exec .patch State.reset)).map (·.status.err) = some true ∧
      (next? (exec .checksum inFlight)).map (·.status.err) = some false := by decide

/-- CommandsDependOnlyOnInputs: two machines that differ in a register and in a byte CHECKSUM does not read. -/
def sumHere : State := { State.reset with srcLen := 2, buf := [(0, 1), (1, 2)] }
def sumThere : State := { State.reset with srcLen := 2, dstAddr := 9, buf := [(0, 1), (1, 2), (2, 7)] }

theorem test_hyp_same_registers (r : RegName) (h : readsRegister .checksum r = true) :
    readReg sumThere r = readReg sumHere r := by
  cases r with
  | dstAddr => exact nomatch h
  | _ => rfl

theorem test_hyp_same_bytes (a : Nat) (h : readsByte sumHere .checksum a) : sumThere.byteAt a = sumHere.byteAt a := by
  have ha : a < 2 := h.2
  match a with
  | 0 => rfl
  | 1 => rfl

theorem test_hyp_same_results :
    sumThere.platform = sumHere.platform ∧ sumThere.status = sumHere.status ∧ sumThere.dstLen = sumHere.dstLen ∧
      sumThere.pageOffset = sumHere.pageOffset ∧ sumThere.checksum = sumHere.checksum ∧
      sumThere.dstAddr ≠ sumHere.dstAddr := by decide

/-! ## One step of each command -/

/-- V-UF2-14: nothing but target address, payload size and payload is looked at. -/
def uf2v14 : State :=
  { withBuf [(0, zeros 512), (12, [5, 0, 0, 0, 4, 0, 0, 0]), (32, [1, 2, 3, 4])] with srcLen := 512, dstAddr := 0x400 }

theorem test_uf2Decode_one_block :
    results .uf2Decode uf2v14 = some (0x2, 0, 4, 0, 0) ∧ bytesAfter .uf2Decode uf2v14 0x400 4 = some [1, 2, 3, 4] := by
  decide +kernel

theorem test_uf2Decode_no_wrap : results .uf2Decode uf2v15 = some (0x6, 1, 0, 0, 0) := by decide +kernel

/-- V-UF2-2, over the bytes the test looks at. -/
def uf2v2 : State :=
  { withBuf [(0, (List.range 256).map (BitVec.ofNat 8))] with
    srcLen := 256
    dstAddr := 0x400
    baseAddr := 0x10000000
    familyId := 0xABCD1234 }

theorem test_uf2Encode_block :
    results .uf2Encode uf2v2 = some (0x2, 0, 512, 0, 0) ∧
      bytesAfter .uf2Encode uf2v2 0x400 36 = some
        [0x55, 0x46, 0x32, 0x0a, 0x57, 0x51, 0x5d, 0x9e, 0, 0, 0, 0, 0, 0, 0, 0x10, 0, 1, 0, 0, 0, 0, 0, 0,
          1, 0, 0, 0, 0x34, 0x12, 0xcd, 0xab, 0, 1, 2, 3] ∧
      bytesAfter .uf2Encode uf2v2 (0x400 + 506) 6 = some [0, 0, 0x30, 0x6f, 0xb1, 0x0a] := by decide +kernel

/-- V-UF2-6, its middle case. -/
theorem test_uf2Encode_overflow :
    results .uf2Encode { State.reset with srcLen := 512, dstAddr := 0x400, baseAddr := 0xFFFFFF00 } =
      some (0x6, 7, 0, 0, 0) := by decide +kernel

/-- V-CK-3 and V-CK-11. -/
theorem test_checksum_three_bytes :
    results .checksum { withBuf [(0x100, [1, 2, 3])] with srcAddr := 0x100, srcLen := 3 } =
      some (0x2, 0, 0, 0, 0xD81F) := by decide
theorem test_checksum_empty_at_end :
    results .checksum { State.reset with srcAddr := 0x10000 } = some (0x2, 0, 0, 0, 0x007B) := by decide

theorem test_locateSlot_page_zero : results .locateSlot oneFooter = some (0xA, 0, 0, 0, 0) := by decide +kernel
theorem test_locateSlot_no_page :
    results .locateSlot { State.reset with slotSel := 9 } = some (0x6, 3, 0, 0, 0) := by decide

/-- V-SI-1's notes, pitched and loop; the rest of the page stays unwritten. -/
def siPage : State :=
  { withBuf [(1060, [0xf4, 0x00, 0x7f, 0x80, 0xff, 0x01, 0x0c, 0x3c, 0xff, 0x03, 0xee, 0xdd])] with
    srcLen := 2048
    dstAddr := 0x1000 }

theorem test_siUnpack_signs :
    results .siUnpack siPage = some (0x2, 0, 1100, 0, 0) ∧
      bytesAfter .siUnpack siPage (0x1000 + 1060) 16 = some
        [0xf4, 0xff, 0xff, 0xff, 0, 0, 0, 0, 0x7f, 0, 0, 0, 0x80, 0xff, 0xff, 0xff] ∧
      bytesAfter .siUnpack siPage (0x1000 + 1092) 8 = some [0xff, 0, 0, 0, 3, 0, 0, 0] := by decide +kernel

/-- V-SI-5. -/
theorem test_siUnpack_length_first :
    results .siUnpack { State.reset with srcLen := 2047, recOffset := 969 } = some (0x6, 9, 0, 0, 0) := by decide

/-- V-SI-3, over the bytes the test looks at: the sample length comes from the URI, the first note from the page. -/
def packCase : State :=
  { withBuf [(1060, [0xf4, 0x00]), (0x1000 + 1056, [0xff, 0xff, 0xff, 0xff, 0x99])] with
    srcLen := 2048
    recAddr := 0x1000
    dstAddr := 0x2000 }

theorem test_siPack_keeps_notes :
    results .siPack packCase = some (0x2, 0, 2048, 0, 0) ∧
      bytesAfter .siPack packCase (0x2000 + 1056) 6 = some [0xff, 0xff, 0xff, 0xff, 0xf4, 0x00] := by decide +kernel

/-- V-SI-6. -/
theorem test_siPack_output_on_record :
    results .siPack { packCase with dstAddr := 0x1000 + 1099 } = some (0x6, 11, 0, 0, 0) := by decide +kernel

theorem test_patch_page :
    okAnd (patch patchedPage 0x28 1 (zeros 1100) 0) (fun r =>
      decide (r.page = 0 ∧ r.sum = 0x57BB ∧ slice r.image 2038 10 = [0, 0, 0x28, 1, 0xBB, 0x57, 2, 0, 0, 0])) = true := by
  decide +kernel

/-- V-PT-4, its last case: the offset check comes before the scan. -/
theorem test_patch_offset_before_scan :
    results .patch { State.reset with srcLen := 2048, dstAddr := 0x2000, slotSel := 0x0282, recOffset := 969 } =
      some (0x6, 10, 0, 0, 0) := by decide +kernel

end Sys2Proof.Tests
end

section
/-! PROOF. A host write of a register while the block is idle (R25, R47). -/

namespace Sys2Proof.Machine

/-- R25: every register stands at its own offset of the window. -/
@[simp] theorem regAt?_offset (r : RegName) : regAt? r.offset = some r := by
  cases r <;> rfl

theorem regWrite_offset_of_idle {s : State} (hidle : s.status.busy = false) (r : RegName) (v : Word) :
    regWrite s r.offset v = writeReg s v r := by
  simp [regWrite, hidle]

theorem regWrite_cmd_of_idle {s : State} (hidle : s.status.busy = false) (w : Word) :
    regWrite s 0x00 w = launch s w :=
  regWrite_offset_of_idle hidle .cmd w

/-- Settles O7: offset 0 holds CMD, and a write of CMD while idle is the launch of R47. -/
theorem launchEffect : Obligations.LaunchEffect := by
  intro s w hidle
  rw [regWrite_cmd_of_idle hidle, launch, Status.launched]

end Sys2Proof.Machine
end

section
/-! PROOF. The opcode map (R91) and the illegal words (R92). -/

namespace Sys2Proof

/-- The opcode map of R91 is the table the encoder is made from. -/
theorem decodeOpcode_eq_ok_iff (opc : Nat) (i : Instr) : decodeOpcode opc = .ok i ↔ opc = (encode i).toNat := by
  constructor
  · intro h
    unfold decodeOpcode at h
    split at h <;> cases h <;> rfl
  · rintro rfl
    cases i <;> rfl

theorem encode_toNat_lt (i : Instr) : (encode i).toNat < 256 := by
  cases i <;> decide

/-- R91: a command is named by one word only, its own. -/
theorem decodeWord_eq_ok_iff (w : Word) (i : Instr) : decodeWord w = .ok i ↔ w = encode i := by
  have hsmall := encode_toNat_lt i
  rw [decodeWord, ← BitVec.toNat_inj]
  split
  · simp only [reduceCtorEq, false_iff]
    omega
  · rw [decodeOpcode_eq_ok_iff]
    omega

/-- A word is put together from its reserved bits and its opcode. -/
theorem word_eq_iff_fields (w v : Word) :
    w = v ↔ w.extractLsb' 8 24 = v.extractLsb' 8 24 ∧ w.extractLsb' 0 8 = v.extractLsb' 0 8 := by
  constructor
  · rintro rfl
    exact ⟨rfl, rfl⟩
  · rintro ⟨hhigh, hlow⟩
    simp only [← BitVec.toNat_inj, BitVec.extractLsb'_toNat, Nat.shiftRight_eq_div_pow] at hhigh hlow ⊢
    omega

theorem legalCommand_encode (i : Instr) : LegalCommand (encode i) := by
  cases i <;> decide

/-- R91 for any command: the reserved bits are 0 and the opcode is the command's. -/
theorem decodeWord_eq_ok_iff_fields (w : Word) (i : Instr) :
    decodeWord w = .ok i ↔ w.extractLsb' 8 24 = 0 ∧ w.extractLsb' 0 8 = (encode i).extractLsb' 0 8 := by
  rw [decodeWord_eq_ok_iff, word_eq_iff_fields, (legalCommand_encode i).1]

/-- Settles O2: each clause is the general statement at one command, whose opcode `encode` computes. -/
theorem opcodeMapIsExact : Obligations.OpcodeMapIsExact := fun w =>
  ⟨decodeWord_eq_ok_iff_fields w .uf2Decode, decodeWord_eq_ok_iff_fields w .uf2Encode,
    decodeWord_eq_ok_iff_fields w .checksum, decodeWord_eq_ok_iff_fields w .locateSlot,
    decodeWord_eq_ok_iff_fields w .siUnpack, decodeWord_eq_ok_iff_fields w .siPack,
    decodeWord_eq_ok_iff_fields w .patch⟩

/-- Only a legal word names a command (R92). -/
theorem legalCommand_of_decodeWord {w : Word} {i : Instr} (h : decodeWord w = .ok i) : LegalCommand w :=
  (decodeWord_eq_ok_iff w i).1 h ▸ legalCommand_encode i

theorem not_legalCommand_iff (w : Word) :
    ¬ LegalCommand w ↔
      w.extractLsb' 8 24 ≠ 0 ∨ (w.extractLsb' 0 8).toNat = 0 ∨ 8 ≤ (w.extractLsb' 0 8).toNat := by
  rw [LegalCommand, not_and_or]
  exact or_congr_right (by omega)

namespace Machine

/-- R92: the completion of an illegal word is the error end with code 12, whatever the operands and BUF hold. -/
theorem engineStep_of_illegal {s : State} (hill : ¬ LegalCommand s.cmdl) :
    engineStep s = .next (s.failedWith 12) := by
  unfold engineStep
  split
  · rename_i i hi
    exact absurd (legalCommand_of_decodeWord hi) hill
  · exact congrArg _ (errorEnd_eq_failedWith s .illegalCommand)

/-- Settles O4: no command has an illegal word; its launch is that of any word (O7), its completion the error end. -/
theorem illegalWordEndsInError : Obligations.IllegalWordEndsInError := by
  intro s w hw
  have hill : ¬ LegalCommand w := (not_legalCommand_iff w).2 hw
  refine ⟨fun i hi => hill (legalCommand_of_decodeWord hi), launchEffect s w, ?_⟩
  rintro rfl
  exact engineStep_of_illegal hill

end Machine

end Sys2Proof
end

section
/-! PROOF. Slices and little-endian fields of a byte sequence with some bytes replaced (R9). -/

namespace Sys2Proof.Machine

theorem slice_drop (l : List Byte) (n o k : Nat) : slice (l.drop n) o k = slice l (n + o) k := by
  rw [slice, slice, List.drop_drop]

theorem slice_splice_of_disjoint {l t : List Byte} {o a k : Nat} (hfit : o + t.length ≤ l.length)
    (hdisj : a + k ≤ o ∨ o + t.length ≤ a) : slice (splice l o t) a k = slice l a k := by
  apply bytes_ext
  · rw [length_slice, length_slice, length_splice _ _ _ hfit]
  · intro i hi
    have hik : i < k := by rw [length_slice] at hi; omega
    rw [slice_getD _ _ _ _ hik, slice_getD _ _ _ _ hik, splice_getD _ _ _ _ hfit, if_neg (by omega)]

theorem le32_splice_of_disjoint {l t : List Byte} {o a : Nat} (hfit : o + t.length ≤ l.length)
    (hdisj : a + 4 ≤ o ∨ o + t.length ≤ a) : le32 (splice l o t) a = le32 l a :=
  congrArg leNat (slice_splice_of_disjoint hfit hdisj)

theorem le32_splice_put32 {l : List Byte} {o v : Nat} (hfit : o + 4 ≤ l.length) (hv : v < 2 ^ 32) :
    le32 (splice l o (put32 v)) o = v := by
  refine le32_of_put32 (by rwa [length_splice _ _ _ (by rwa [length_put32])]) hv fun k hk => ?_
  rw [splice_getD _ _ _ _ (by rwa [length_put32]), length_put32, if_pos (by omega), Nat.add_sub_cancel_left]

end Sys2Proof.Machine
end

section
/-! PROOF. The UF2 codec: the errors of UF2_ENCODE (R145 to R147), the round trip (R148) and one changed target address
(R149). -/

namespace Sys2Proof.Machine

/-! The errors of UF2_ENCODE. -/

/-- R145: encode never pads. -/
theorem uf2Encode_badPayloadLength {p : List Byte} (base fam : Word) (hlen : p.length % 256 ≠ 0) :
    uf2Encode p base fam = .error .badPayloadLength := by
  rw [uf2Encode, if_pos hlen]

/-- R146: a target address never wraps. -/
theorem uf2Encode_addressOverflow {p : List Byte} {base : Word} (fam : Word) (hlen : p.length % 256 = 0)
    (hpos : 0 < p.length) (hover : 0xFFFFFFFF < base.toNat + 256 * (p.length / 256 - 1)) :
    uf2Encode p base fam = .error .addressOverflow := by
  have hchunks : 0 < p.length / 256 := by omega
  rw [uf2Encode, if_neg (not_not_intro hlen), if_pos ⟨hchunks, hover⟩]

/-- An error of uf2_encode is the error UF2_ENCODE ends in, once the input region is inside BUF. -/
theorem exec_uf2Encode_error {s : State} {e : CmdError} (hin : s.InBuf s.src s.srcN)
    (herr : uf2Encode (s.region (srcRegion s)) s.baseAddr s.familyId = .error e) :
    exec .uf2Encode s = .next (s.failedWith e.code) := by
  have hunit : unitResult s .uf2Encode = .error e := by rw [unitResult, herr, outputOnly]
  exact exec_unit_error ((srcInside_iff s).2 hin) hunit

/-- Every block that uf2_encode writes has 512 bytes. -/
theorem length_uf2Block_slice (base fam : Word) {p : List Byte} {n i : Nat} (hp : p.length = 256 * n) (hi : i < n) :
    (uf2Block base fam n i (slice p (256 * i) 256)).length = 512 :=
  length_uf2Block base fam n i (by rw [length_slice]; omega)

/-- Two 256-byte chunks fit in the space of one block, so the image is twice as long as its payload. -/
theorem length_uf2Encode {p img : List Byte} {base fam : Word} (h : uf2Encode p base fam = .ok img) :
    img.length = 2 * p.length := by
  obtain ⟨hlen, hfits⟩ := uf2Encode_inv h
  obtain rfl := Except.ok.inj ((uf2Encode_ok fam hlen hfits).symm.trans h)
  rw [length_pieces _ fun i hi => length_uf2Block_slice base fam (by omega) hi]
  omega

/-- Settles O26: the checks in R147's order, each with the lemma that says what it answers. -/
theorem uf2EncodeErrors : Obligations.Uf2EncodeErrors := by
  intro s
  have hlen : (s.region (srcRegion s)).length = s.srcN := length_region s _
  refine ⟨fun hout => ?_, fun hin hbad => ?_, fun hin hwhole hpos hover => ?_, fun hin hwhole hfits hdst => ?_⟩
  · exact exec_inputs_outside (Bool.eq_false_iff.2 fun hin => hout ((srcInside_iff s).1 hin))
  · exact exec_uf2Encode_error hin (uf2Encode_badPayloadLength _ _ (by rwa [hlen]))
  · exact exec_uf2Encode_error hin
      (uf2Encode_addressOverflow _ (by rwa [hlen]) (by rwa [hlen]) (by rwa [hlen]))
  · have hok := uf2Encode_ok s.familyId (base := s.baseAddr) (by rwa [hlen]) (by rwa [hlen])
    have himg := length_uf2Encode hok
    have hunit := congrArg outputOnly hok
    refine exec_output_refused ((srcInside_iff s).2 hin) hunit rfl (Bool.eq_false_iff.2 fun hallowed => hdst ?_)
    rw [himg, hlen] at hallowed
    exact (outputClearOfSrc_iff s _).1 hallowed

/-! Images of 256-byte chunks, as decode sees them. -/

/-- `img` is `n` blocks that carry the `n` chunks of `p` in order, block `i` with target address `target i`. -/
structure CarriesChunks (img p : List Byte) (n : Nat) (target : Nat → Nat) : Prop where
  imageLength : img.length = 512 * n
  payloadLength : p.length = 256 * n
  target : ∀ i < n, le32 img (512 * i + 12) = target i
  size : ∀ i < n, le32 img (512 * i + 16) = 256
  payload : ∀ i < n, slice img (512 * i + 32) 256 = slice p (256 * i) 256

/-- R95, R144: the target addresses of an encoded image rise by 256 from the base address. -/
theorem carriesChunks_of_uf2Encode {p img : List Byte} {base fam : Word} (h : uf2Encode p base fam = .ok img) :
    CarriesChunks img p (p.length / 256) fun i => base.toNat + 256 * i := by
  obtain ⟨hwhole, hfits⟩ := uf2Encode_inv h
  have himg := length_uf2Encode h
  obtain rfl := Except.ok.inj ((uf2Encode_ok fam hwhole hfits).symm.trans h)
  generalize hn : p.length / 256 = n at *
  have hlen : p.length = 256 * n := by omega
  have hchunk : ∀ i < n, (slice p (256 * i) 256).length = 256 := fun i hi => by rw [length_slice]; omega
  have hbyte := pieces_getD n fun i hi => length_uf2Block_slice base fam hlen hi
  refine ⟨by omega, hlen, fun i hi => ?_, fun i hi => ?_, fun i hi => ?_⟩
  · refine le32_of_put32 (by omega) (by omega) fun k hk => ?_
    obtain ⟨-, -, -, htarget, -⟩ := uf2Block_words base fam n i (hchunk i hi) hk
    rw [Nat.add_assoc, hbyte i hi _ (by omega), htarget]
  · refine le32_of_put32 (by omega) (by omega) fun k hk => ?_
    obtain ⟨-, -, -, -, hsize, -⟩ := uf2Block_words base fam n i (hchunk i hi) hk
    rw [Nat.add_assoc, hbyte i hi _ (by omega), hsize]
  · apply bytes_ext
    · rw [hchunk i hi, length_slice]
      omega
    · intro k hk
      have hk : k < 256 := by rw [length_slice] at hk; omega
      rw [slice_getD _ _ _ _ hk, Nat.add_assoc, hbyte i hi _ (by omega),
        (uf2Block_payload base fam n i (hchunk i hi)).1 k hk]

namespace CarriesChunks

variable {img p : List Byte} {n : Nat} {target : Nat → Nat}

/-- Writing a block's target address field changes that target address and nothing else that decode reads (R99). -/
theorem splice_target (h : CarriesChunks img p n target) {j v : Nat} (hj : j < n) (hv : v < 2 ^ 32) :
    CarriesChunks (splice img (512 * j + 12) (put32 v)) p n (Function.update target j v) := by
  have himg := h.imageLength
  have hfit : 512 * j + 12 + (put32 v).length ≤ img.length := by rw [length_put32]; omega
  refine ⟨(length_splice _ _ _ hfit).trans himg, h.payloadLength, fun i hi => ?_, fun i hi => ?_, fun i hi => ?_⟩
  · by_cases hij : i = j
    · subst hij
      rw [Function.update_self, le32_splice_put32 (by omega) hv]
    · rw [Function.update_of_ne hij, le32_splice_of_disjoint hfit (by rw [length_put32]; omega), h.target i hi]
  · rw [le32_splice_of_disjoint hfit (by rw [length_put32]; omega), h.size i hi]
  · rw [slice_splice_of_disjoint hfit (by rw [length_put32]; omega), h.payload i hi]

/-- R141 for chunks of 256 bytes. -/
theorem follows_succ_iff (h : CarriesChunks img p n target) {i : Nat} (hi : i + 1 < n) :
    Follows img (i + 1) ↔ target (i + 1) = target i + 256 := by
  rw [Follows, Nat.add_sub_cancel, h.target _ hi, h.target i (by omega), h.size i (by omega)]
  simp

/-- Where every target address rises by 256, decode answers the payload that is left, block by block. -/
theorem uf2Blocks_eq (h : CarriesChunks img p n target) (hrise : ∀ i, i + 1 < n → target (i + 1) = target i + 256) :
    ∀ m j, j + m = n → uf2Blocks (dueAt img j) m (img.drop (512 * j)) = .ok (p.drop (256 * j))
  | 0, j, hjm => by
    rw [uf2Blocks, List.drop_of_length_le (by rw [h.payloadLength]; omega)]
  | m + 1, j, hjm => by
    have hj : j < n := by omega
    have hfollows : Follows img j := by
      cases j with
      | zero => exact .inl rfl
      | succ i => exact (h.follows_succ_iff hj).2 (hrise i hj)
    rw [uf2Blocks_succ, if_neg (not_not_intro hfollows), h.size j hj, if_neg (by omega),
      uf2Blocks_eq h hrise m (j + 1) (by omega), slice_drop, h.payload j hj, slice, Nat.mul_add, ← List.drop_drop]
    exact congrArg _ (List.take_append_drop 256 _)

theorem uf2Decode_eq_ok (h : CarriesChunks img p n target)
    (hrise : ∀ i, i + 1 < n → target (i + 1) = target i + 256) : uf2Decode img = .ok p := by
  rw [uf2Decode_eq h.imageLength, h.uf2Blocks_eq hrise n 0 (Nat.zero_add n)]
  rfl

end CarriesChunks

/-- Settles O27: an encoded image carries the payload's chunks at target addresses that rise by 256. -/
theorem uf2RoundTrip : Obligations.Uf2RoundTrip := by
  intro p base fam hwhole hfits
  have hencode := uf2Encode_ok fam hwhole hfits
  exact ⟨_, hencode, (carriesChunks_of_uf2Encode hencode).uf2Decode_eq_ok fun i _ => by omega⟩

/-! One changed target address. -/

/-- R140, R141: a block that does not follow its predecessor is an error NON_CONTIGUOUS, if no payload size before it is too
large: the block itself is reached, or an earlier one ends the loop the same way. -/
theorem uf2Blocks_nonContiguous {img : List Byte} {i : Nat} (hbroken : ¬ Follows img i) :
    ∀ m j, j ≤ i → i < j + m → (∀ k, j ≤ k → k < i → le32 img (512 * k + 16) ≤ 476) →
      uf2Blocks (dueAt img j) m (img.drop (512 * j)) = .error .nonContiguous
  | 0, _, hji, hi, _ => by omega
  | m + 1, j, hji, hi, hsize => by
    rw [uf2Blocks_succ]
    by_cases hfollows : Follows img j
    · have hlt : j < i := lt_of_le_of_ne hji (by rintro rfl; exact hbroken hfollows)
      rw [if_neg (not_not_intro hfollows), if_neg (Nat.not_lt.2 (hsize j le_rfl hlt)),
        uf2Blocks_nonContiguous hbroken m (j + 1) hlt (by omega) fun k hk hki => hsize k (by omega) hki]
    · rw [if_pos hfollows]

theorem CarriesChunks.uf2Decode_nonContiguous {img p : List Byte} {n i : Nat} {target : Nat → Nat}
    (h : CarriesChunks img p n target) (hi : i + 1 < n) (hbroken : target (i + 1) ≠ target i + 256) :
    uf2Decode img = .error .nonContiguous := by
  rw [uf2Decode_eq h.imageLength]
  exact uf2Blocks_nonContiguous (mt (h.follows_succ_iff hi).1 hbroken) n 0 (Nat.zero_le _) (by omega)
    fun k _ hk => by rw [h.size k (by omega)]; omega

/-- Settles O28: block 1 no longer follows a changed block 0, and any other changed block does not follow its predecessor; a
single block follows nothing. -/
theorem uf2Perturbation : Obligations.Uf2Perturbation := by
  intro p img base fam v j hencode hj hv
  have himg := carriesChunks_of_uf2Encode hencode
  have himg' := himg.splice_target hj v.isLt
  rw [himg.target j hj] at hv
  refine ⟨fun htwo => ?_, fun hone => himg'.uf2Decode_eq_ok fun i hi => by omega⟩
  cases j with
  | zero =>
    refine himg'.uf2Decode_nonContiguous (i := 0) htwo ?_
    rw [Function.update_self, Function.update_of_ne (by omega)]
    omega
  | succ i =>
    refine himg'.uf2Decode_nonContiguous hj ?_
    rw [Function.update_self, Function.update_of_ne (by omega)]
    rwa [Nat.mul_succ, ← Nat.add_assoc] at hv

end Sys2Proof.Machine
end

section
/-! PROOF. The checksum generator: the unit function (R180), its command (R181) and its sensitivity to changed bytes
(R184). -/

namespace Sys2Proof.Machine

/-! The unit function. -/

/-- R180's step in numerals. -/
theorem checksumStep_eq (acc : Nat) (b : Byte) : checksumStep acc b = (acc * 23 + b.toNat) % 65536 := rfl

theorem checksum_concat (s : List Byte) (b : Byte) : checksum (s ++ [b]) = checksumStep (checksum s) b :=
  List.foldl_concat ..

theorem checksum_append (u v : List Byte) : checksum (u ++ v) = v.foldl checksumStep (checksum u) :=
  List.foldl_append ..

theorem checksumStep_lt (acc : Nat) (b : Byte) : checksumStep acc b < 65536 :=
  Nat.mod_lt _ (by decide)

/-- R180: the hash is reduced at every step, and the seed is in range. -/
theorem checksum_lt (s : List Byte) : checksum s < 65536 := by
  induction s using List.reverseRecOn with
  | nil => decide
  | append_singleton s b _ =>
    rw [checksum_concat]
    exact checksumStep_lt _ b

/-- R180's closed form: one more byte is one more step of both sides. -/
theorem checksum_eq_hashOf (s : List Byte) : checksum s = hashOf (fun k => s.getD k 0) s.length := by
  induction s using List.reverseRecOn with
  | nil => rfl
  | append_singleton s b ih =>
    have hinit : hashOf (fun k => (s ++ [b]).getD k 0) s.length = hashOf (fun k => s.getD k 0) s.length :=
      hashOf_congr _ fun k hk => List.getD_append _ _ _ _ hk
    have hlast : (s ++ [b]).getD s.length 0 = b := by simp
    rw [checksum_concat, checksumStep_eq, List.length_append, List.length_singleton, hashOf_succ, hinit, hlast, ih]

/-- Settles O31, from the step, the range and the closed form of R180. -/
theorem checksumFunction : Obligations.ChecksumFunction :=
  ⟨rfl, checksum_concat, checksum_lt, checksum_eq_hashOf⟩

/-! The command. -/

/-- The closed form over the bytes of the SRC region, wherever it lies. -/
theorem checksum_srcRegion (s : State) :
    checksum (s.region (srcRegion s)) = hashOf (fun k => s.byteAt (s.src + k)) s.srcN := by
  rw [checksum_eq_hashOf, length_region]
  exact hashOf_congr _ fun k hk => bytes_getD _ _ _ _ hk

/-- The success end of a command that answers a checksum only: BUF, PAGE_OFFSET and FOUND stay. -/
theorem successEnd_sum (s : State) (c : Nat) :
    successEnd s { sum := some c } =
      s.succeededWith s.buf 0 s.pageOffset (BitVec.ofNat 16 c) s.status.found := rfl

/-- Settles O30: the region check is the only one, and a checksum is the only result. -/
theorem checksumCommand : Obligations.ChecksumCommand := by
  refine fun s => ⟨fun hin => ?_, fun hout => ?_⟩
  · rw [← checksum_srcRegion, ← successEnd_sum]
    exact exec_unit_ok ((srcInside_iff s).2 hin) rfl nofun
  · exact exec_inputs_outside (Bool.eq_false_iff.2 fun hin => hout ((srcInside_iff s).1 hin))

/-! Changed bytes. -/

/-- 23 is odd, so a step loses nothing of the accumulator. -/
theorem checksumStep_left_inj {x y : Nat} (b : Byte) (hx : x < 65536) (hy : y < 65536)
    (h : checksumStep x b = checksumStep y b) : x = y := by
  rw [checksumStep_eq, checksumStep_eq] at h
  omega

/-- A step tells any two bytes apart: they differ by less than the modulus. -/
theorem checksumStep_right_inj {acc : Nat} {a b : Byte} (h : checksumStep acc a = checksumStep acc b) : a = b := by
  rw [checksumStep_eq, checksumStep_eq] at h
  have ha := a.isLt
  have hb := b.isLt
  exact BitVec.eq_of_toNat_eq (by omega)

/-- Two accumulators that differ still differ after the same bytes. -/
theorem foldl_checksumStep_inj {x y : Nat} (v : List Byte) (hx : x < 65536) (hy : y < 65536)
    (h : v.foldl checksumStep x = v.foldl checksumStep y) : x = y := by
  induction v generalizing x y with
  | nil => exact h
  | cons b v ih => exact checksumStep_left_inj b hx hy (ih (checksumStep_lt x b) (checksumStep_lt y b) h)

/-- R184: what 1 more in a byte adds to the next accumulator, 23 less in the next byte takes away. -/
theorem checksumStep_compensate (acc : Nat) {a b : Byte} (ha : a.toNat + 1 < 256) (hb : 23 ≤ b.toNat) :
    checksumStep (checksumStep acc (a + 1)) (b - 23) = checksumStep (checksumStep acc a) b := by
  have ha' : (a + 1).toNat = a.toNat + 1 := by bv_omega
  have hb' : (b - 23).toNat = b.toNat - 23 := by bv_omega
  simp only [checksumStep_eq, ha', hb']
  omega

/-- Settles O32: the changed byte changes the accumulator and every later step keeps the difference; the compensating
pair leaves the accumulator after it as it was. -/
theorem checksumSensitivity : Obligations.ChecksumSensitivity := by
  refine ⟨fun u v a b hab heq => ?_, fun u v a b ha hb => ?_⟩
  · rw [checksum_append, checksum_append] at heq
    exact hab (checksumStep_right_inj (foldl_checksumStep_inj v (checksumStep_lt _ a) (checksumStep_lt _ b) heq))
  · simp only [checksum_append, List.foldl_cons, checksumStep_compensate _ ha hb]

end Sys2Proof.Machine
end

section
/-! PROOF. The slot resolver: the footers of the SRC region, and the errors of LOCATE_SLOT (R203, R204). -/

namespace Sys2Proof.Machine

/-! The footers of the SRC region's pages, as bytes of BUF (R102). -/

/-- A byte of page `q` of the SRC region is read at its BUF address. -/
theorem byteOf_srcRegion_page {s : State} {q k : Nat} (hq : q < s.srcN / 2048) (hk : k < 2048) :
    byteOf (s.region (srcRegion s)) (2048 * q + k) = (s.byteAt (s.src + 2048 * q + k)).toNat := by
  have hfits : 2048 * q + k < s.srcN := by omega
  exact congrArg BitVec.toNat ((bytes_getD s s.src s.srcN _ hfits).trans (by rw [Nat.add_assoc]))

theorem candidate_srcRegion_iff {s : State} {q : Nat} (hq : q < s.srcN / 2048) :
    Candidate (s.region (srcRegion s)) (slotId s) (slotVersion s) q ↔ s.PageMatches q := by
  rw [Candidate, footerSlot, footerVersion, byteOf_srcRegion_page hq (by decide), byteOf_srcRegion_page hq (by decide)]
  rfl

theorem footerSequence_srcRegion {s : State} {q : Nat} (hq : q < s.srcN / 2048) :
    footerSequence (s.region (srcRegion s)) (2048 * q) = s.pageSeq q := by
  have hfits : 2048 * q + 2044 + 4 ≤ s.srcN := by omega
  exact (le32_bytes s s.src s.srcN _ hfits).trans (by rw [State.pageSeq, ← Nat.add_assoc])

/-! The errors of locate and of its command. -/

/-- R200, decision D22: locate scans whole pages only. -/
theorem locate_badImageLength {img : List Byte} (sid ver : Nat) (hlen : img.length % 2048 ≠ 0) :
    locate img sid ver = .error .badImageLength := by
  rw [locate, if_pos hlen]

/-- R203: where every candidate has sequence number 0, locate picks no page. -/
theorem locate_slotNotResolved {s : State} (hwhole : s.srcN % 2048 = 0) (hnone : s.NoneResolves) :
    locate (s.region (srcRegion s)) (slotId s) (slotVersion s) = .error .slotNotResolved := by
  have hlen : (s.region (srcRegion s)).length = s.srcN := length_region s _
  rcases locate_cases (slotId s) (slotVersion s) (hlen ▸ hwhole) with ⟨herr, -⟩ | ⟨p, -, hpicked⟩
  · exact herr
  · obtain ⟨hp, hcandidate, hpos, -⟩ := hpicked
    rw [hlen] at hp
    rw [footerSequence_srcRegion hp, hnone p hp ((candidate_srcRegion_iff hp).1 hcandidate)] at hpos
    exact absurd hpos (Nat.lt_irrefl 0)

/-- An error of locate is the error LOCATE_SLOT ends in, once the input region is inside BUF. -/
theorem exec_locateSlot_error {s : State} {e : CmdError} (hin : s.InBuf s.src s.srcN)
    (herr : locate (s.region (srcRegion s)) (slotId s) (slotVersion s) = .error e) :
    exec .locateSlot s = .next (s.failedWith e.code) := by
  have hunit : unitResult s .locateSlot = .error e := by rw [unitResult, herr]
  exact exec_unit_error ((srcInside_iff s).2 hin) hunit

/-- Settles O34: the region check comes first, then the two errors of locate. -/
theorem locateSlotErrors : Obligations.LocateSlotErrors := by
  refine fun s => ⟨fun hout => ?_, fun hin hbad => ?_, fun hin hwhole hnone => ?_⟩
  · exact exec_inputs_outside (Bool.eq_false_iff.2 fun hin => hout ((srcInside_iff s).1 hin))
  · exact exec_locateSlot_error hin (locate_badImageLength _ _ (by rwa [length_region]))
  · exact exec_locateSlot_error hin (locate_slotNotResolved hwhole hnone)

end Sys2Proof.Machine
end

section
/-! PROOF. The sample-metadata marshaler: si_unpack of a page that si_pack has written (R238). -/

namespace Sys2Proof.Machine

/-! Slices of bytes put together. -/

theorem slice_append_left {a b : List Byte} {n : Nat} (ha : a.length = n) : slice (a ++ b) 0 n = a := by
  rw [slice, List.drop_zero, List.take_left' ha]

theorem slice_append_right {a b : List Byte} {n m : Nat} (ha : a.length = n) (hb : b.length = m) :
    slice (a ++ b) n m = b := by
  rw [slice, List.drop_left' ha, List.take_of_length_le hb.le]

theorem slice_splice_same {l t : List Byte} {o n : Nat} (ht : t.length = n) (hfit : o + n ≤ l.length) :
    slice (splice l o t) o n = t := by
  have hpre : (l.take o).length = o := List.length_take_of_le (by omega)
  rw [slice, splice, List.append_assoc, List.drop_left' hpre, List.take_left' ht]

/-! The words of a record image that come from the page alone. -/

/-- The note, pitched and loop words that si_unpack makes from a record (R110, R230). -/
def ownWords (r : List Byte) : List Byte :=
  noteWords r ++ (put32 (byteOf r 1068) ++ put32 (byteOf r 1069))

theorem length_ownWords (r : List Byte) : (ownWords r).length = 40 := by
  simp [ownWords, length_noteWords]

/-- Record bytes 1060 to 1069 are all that the page's own words are made from. -/
theorem ownWords_congr {r r' : List Byte} (h : ∀ k, 1060 ≤ k → k < 1070 → byteOf r k = byteOf r' k) :
    ownWords r = ownWords r' := by
  have hnotes : noteWords r = noteWords r' := List.flatMap_congr fun k hk => by
    have hk8 : k < 8 := List.mem_range.1 hk
    rw [noteWord, noteWord, h (1060 + k) (by omega) (by omega)]
  rw [ownWords, ownWords, hnotes, h 1068 (by omega) (by omega), h 1069 (by omega) (by omega)]

/-- R230: an unpacked image is the 1060 shared bytes and then the page's own words. -/
theorem siUnpack_shared_own {page : List Byte} {off : Nat} (hrec : off + 1072 ≤ page.length) (hoff : off ≤ 968) :
    siUnpack page off = .ok (slice page off 1060 ++ ownWords (slice page off 1072)) := by
  rw [siUnpack_ok hrec hoff, ownWords]
  simp only [List.append_assoc]

/-- R232: a replacement of the first 1060 record bytes keeps the page's own words. -/
theorem ownWords_splice {page t : List Byte} {off : Nat} (ht : t.length = 1060) (hfit : off + 1060 ≤ page.length) :
    ownWords (slice (splice page off t) off 1072) = ownWords (slice page off 1072) := by
  refine ownWords_congr fun k hlow hhigh => ?_
  have hrec : k < 1072 := by omega
  rw [byteOf, byteOf, slice_getD _ _ _ _ hrec, slice_getD _ _ _ _ hrec, splice_getD _ _ _ _ (by rwa [ht]),
    if_neg (by omega)]

/-- Settles O40: pack puts the image's first 1060 bytes where unpack reads its shared bytes, and leaves the record bytes that
the other words are made from. -/
theorem unpackAfterPack : Obligations.UnpackAfterPack := by
  intro pg u off hpg hu hoff
  have hshared : (u.take 1060).length = 1060 := List.length_take_of_le (by omega)
  have hfit : off + (u.take 1060).length ≤ pg.length := by omega
  have hpg' : (splice pg off (u.take 1060)).length = 2048 := (length_splice _ _ _ hfit).trans hpg
  have hpacked : slice (splice pg off (u.take 1060)) off 1060 = u.take 1060 := slice_splice_same hshared (by omega)
  have hpage : (slice pg off 1060).length = 1060 := by rw [length_slice]; omega
  refine ⟨_, _, _, siPack_ok hoff, siUnpack_shared_own (by omega) hoff, siUnpack_shared_own (by omega) hoff, ?_, ?_⟩
  · rw [hpacked]
    exact slice_append_left hshared
  · rw [hpacked, slice_append_right hshared (length_ownWords _), slice_append_right hpage (length_ownWords _),
      ownWords_splice hshared (by omega)]

end Sys2Proof.Machine
end

section
/-! PROOF. The error end of a launched command (R284). -/

namespace Sys2Proof.Machine

/-- R281: every error's code is distinct from NONE. -/
theorem CmdError.code_ne_zero (e : CmdError) : e.code ≠ 0 := by
  cases e <;> decide

/-- R284: a command that ends with ERR = 1 ends in the error end, which alone sets ERR. -/
theorem eq_errorEnd_of_err {i : Instr} {s t : State} (hexec : exec i s = .next t) (herr : t.status.err = true) :
    ∃ e, t = errorEnd s e := by
  rcases exec_cases hexec with hend | ⟨res, -, -, rfl, -⟩
  · exact hend
  · rw [successEnd_status, Status.succeeded_err] at herr
    cases herr

/-- R47, R72: while a command is in flight the results are as its launch cleared them. -/
theorem State.Inv.results_cleared {s : State} (hinv : s.Inv) (hbusy : s.status.busy = true) :
    s.dstLen = 0 ∧ s.pageOffset = 0 ∧ s.checksum = 0 ∧ s.status.found = false := by
  obtain ⟨-, hfound, -, hlen, hpage, hsum⟩ := hinv.cleared (hinv.pending hbusy)
  exact ⟨hlen, hpage, hsum, hfound⟩

/-- Settles O48: the error end writes no result, so each one keeps the value the launch cleared it to. -/
theorem failedCommandWritesNothing : Obligations.FailedCommandWritesNothing := by
  intro i s t hinv hbusy hexec herr
  obtain ⟨e, rfl⟩ := eq_errorEnd_of_err hexec herr
  exact ⟨errorEnd_eq_failedWith s e, e.code_ne_zero, hinv.results_cleared hbusy⟩

end Sys2Proof.Machine
end

section
/-! PROOF. A command word laid out as bytes (R63, R90, entry 16), and the opcode map on the words of its table (R91, R92). -/

namespace Sys2Proof

open Machine

theorem le32_append_zero {a b : List Byte} (ha : a.length = 4) : le32 (a ++ b) 0 = leNat a := by
  rw [le32, slice, List.drop_zero, List.take_left' ha]

/-- The four bytes of a command read as its word, whatever follows them. -/
theorem le32_encodeBytes_append (i : Instr) (rest : List Byte) :
    le32 (encodeBytes i ++ rest) 0 = (encode i).toNat := by
  rw [encodeBytes, le32_append_zero (length_put32 _), put32, leNat_putLe]
  exact Nat.mod_eq_of_lt (encode i).isLt

theorem length_encodeBytes (i : Instr) : (encodeBytes i).length = 4 := length_put32 _

/-- R90: bytes decode to a command exactly when the first four hold the command's word, and the rest is what follows them. -/
theorem decodeBytes_eq_ok_iff (bs rest : List Byte) (i : Instr) :
    decodeBytes bs = .ok (i, rest) ↔ 4 ≤ bs.length ∧ le32 bs 0 = (encode i).toNat ∧ bs.drop 4 = rest := by
  have hword : BitVec.ofNat 32 (le32 bs 0) = encode i ↔ le32 bs 0 = (encode i).toNat := by
    rw [← BitVec.toNat_inj, BitVec.toNat_ofNat, Nat.mod_eq_of_lt (le32_lt bs 0)]
  rw [← hword, ← decodeWord_eq_ok_iff, decodeBytes]
  split
  · simp only [reduceCtorEq, false_iff]
    omega
  · split <;> simp_all

/-- Bytes that hold a command's word are the command's bytes and what follows them. -/
theorem eq_encodeBytes_append {bs : List Byte} {i : Instr} (hlen : 4 ≤ bs.length)
    (hword : le32 bs 0 = (encode i).toNat) : bs = encodeBytes i ++ bs.drop 4 := by
  have hfirst : encodeBytes i = bs.take 4 := by
    have hback := putLe_leNat (bs.take 4)
    rw [List.length_take_of_le hlen] at hback
    rw [encodeBytes, ← hword]
    exact hback
  rw [hfirst, List.take_append_drop]

/-- Settles O3: the word read from the bytes decides both directions, and four bytes hold no more than their word. -/
theorem commandBytesRoundTrip : Obligations.CommandBytesRoundTrip := by
  refine ⟨fun i rest => ?_, fun bs rest i hdecode => ?_⟩
  · refine (decodeBytes_eq_ok_iff _ _ _).2 ⟨?_, le32_encodeBytes_append i rest, ?_⟩
    · rw [List.length_append, length_encodeBytes]
      omega
    · exact List.drop_left' (length_encodeBytes i)
  · obtain ⟨hlen, hword, rfl⟩ := (decodeBytes_eq_ok_iff _ _ _).1 hdecode
    exact eq_encodeBytes_append hlen hword

/-- Settles O1: R91's seven words as the decoder's own lemmas give them, and three words that R92 rejects. -/
theorem commandWordsDecode : Obligations.CommandWordsDecode := by
  refine ⟨decode_uf2Decode, decode_uf2Encode, decode_checksum, decode_locateSlot, decode_siUnpack, decode_siPack,
    decode_patch, ?_, ?_, ?_⟩ <;> decide

end Sys2Proof
end

section
/-! PROOF. The engine's turn and the host's entries that do not reach a port: a completion step (R48), a poll (R113), a
reset (R320). -/

namespace Sys2Proof.Machine

/-! The engine's turn. -/

theorem engineTurn_of_busy {s : State} (hbusy : s.status.busy = true) : engineTurn s = engineStep s := by
  rw [engineTurn, if_pos hbusy]

theorem engineTurn_of_idle {s : State} (hidle : s.status.busy = false) : engineTurn s = .next s := by
  rw [engineTurn, if_neg (by simp [hidle])]

theorem engineStep_of_decodeWord {s : State} {i : Instr} (hi : decodeWord s.cmdl = .ok i) :
    engineStep s = exec i s := by
  simp only [engineStep, hi]

/-- Settles O6: `engineTurn_of_idle`, in both places where the engine has its turn. -/
theorem idleEngineDoesNothing : Obligations.IdleEngineDoesNothing := by
  refine fun s hidle => ⟨fun hnil => ?_, fun rest hturn => ?_⟩
  · rw [step_nil hnil, engineTurn_of_idle hidle]
  · rw [step_cons hturn]
    exact engineTurn_of_idle hidle

/-! A poll. -/

/-- Entry 3: a poll of a busy block leaves the step to the engine and stays where it is. -/
theorem step_poll_of_busy {s : State} {rest : List HostEvent} (hbusy : s.status.busy = true)
    (hpoll : s.inbox = .poll :: rest) : step s = engineStep s := by
  have hkept : ({ s with inbox := .poll :: rest } : State) = s := by rw [← hpoll]
  rw [step_cons hpoll]
  simp only [hostTurn, hbusy, if_true, hkept]

theorem step_poll_of_idle {s : State} {rest : List HostEvent} (hidle : s.status.busy = false)
    (hpoll : s.inbox = .poll :: rest) : step s = .next (reply { s with inbox := rest } s.status.toWord) := by
  rw [step_cons hpoll]
  simp only [hostTurn, hidle, Bool.false_eq_true, if_false]

/-- Settles O5: in all three places the step is the engine's, and the engine's is the command's. -/
theorem stepRunsDecodedCommand : Obligations.StepRunsDecodedCommand := by
  refine fun s i hbusy hi => ⟨fun hnil => ?_, fun rest hturn => ?_, fun rest hpoll => ?_⟩
  · rw [step_nil hnil, engineTurn_of_busy hbusy, engineStep_of_decodeWord hi]
  · have hbusy' : ({ s with inbox := rest } : State).status.busy = true := hbusy
    rw [step_cons hturn]
    exact (engineTurn_of_busy hbusy').trans (engineStep_of_decodeWord hi)
  · rw [step_poll_of_busy hbusy hpoll, engineStep_of_decodeWord hi]

/-- R27: the bits of the STATUS word. -/
theorem Status.toWord_bits (st : Status) :
    st.toWord.getLsbD 0 = st.busy ∧ st.toWord.getLsbD 1 = st.done ∧ st.toWord.getLsbD 2 = st.err ∧
      st.toWord.getLsbD 3 = st.found ∧ st.toWord.getLsbD 4 = st.hviol := by
  obtain ⟨busy, done, err, found, hviol⟩ := st
  revert busy done err found hviol
  decide

/-- R27: STATUS[31:5] reads 0. -/
theorem Status.toWord_high (st : Status) {k : Nat} (hk : 5 ≤ k) : st.toWord.getLsbD k = false := by
  have hsmall : st.toWord.toNat < 2 ^ 5 := by
    obtain ⟨busy, done, err, found, hviol⟩ := st
    revert busy done err found hviol
    decide
  exact Nat.testBit_lt_two_pow (lt_of_lt_of_le hsmall (Nat.pow_le_pow_right (by decide) hk))

/-- Settles O8: the poll's one read answers STATUS, whose bit 0 is BUSY. -/
theorem pollEndsWhenIdle : Obligations.PollEndsWhenIdle := by
  intro s rest hidle hpoll
  obtain ⟨hbit, -⟩ := s.status.toWord_bits
  exact ⟨step_poll_of_idle hidle hpoll, hbit.trans hidle⟩

/-! Reset. -/

/-- R46: every word of the window reads 0 after a reset. -/
theorem regRead_resetAt (p : Config.Platform) (e off : Nat) : regRead (State.resetAt p e) off = 0 := by
  unfold regRead
  cases regAt? off with
  | none => rfl
  | some r => cases r <;> rfl

/-- R322: no byte of BUF is specified after a reset. -/
theorem byteAt_resetAt (p : Config.Platform) (e a : Nat) : (State.resetAt p e).byteAt a = Config.bufDraw e a := rfl

/-- Settles O17: a reset of the block is `State.resetAt` but for the host's side, which no register and no byte of BUF
sees. -/
theorem resetEvent : Obligations.ResetEvent := by
  intro s rest hreset
  exact ⟨resetBlock { s with inbox := rest }, step_cons hreset, regRead_resetAt s.platform (s.epoch + 1), rfl, rfl, rfl,
    byteAt_resetAt s.platform (s.epoch + 1), rfl, rfl, rfl, rfl⟩

/-- Settles O18: `regRead_resetAt`, and a write of CMD to an idle block is a launch (O7). -/
theorem resetStateRegisters : Obligations.ResetStateRegisters := by
  refine ⟨regRead_resetAt _ _, rfl, byteAt_resetAt _ _, fun w => ?_⟩
  rw [regWrite_cmd_of_idle rfl]
  exact ⟨rfl, rfl⟩

end Sys2Proof.Machine
end

section
/-! PROOF. The invariant of the block: every operation on the state keeps it (R46, R47, R72, R284, R285), and so every
step. -/

namespace Sys2Proof.Machine

/-! What the invariant looks at. -/

/-- The fields that `State.Inv` speaks of: not HVIOL, not an RW register, not CMDL, not the host's side. -/
def State.invView (s : State) :=
  (s.platform, s.buf, (s.status.busy, s.status.done, s.status.err, s.status.found), s.errcode, s.dstLen, s.pageOffset,
    s.checksum)

theorem State.Inv.of_view {s t : State} (h : s.Inv) (hview : t.invView = s.invView) : t.Inv := by
  simp only [State.invView, Prod.mk.injEq] at hview
  obtain ⟨hplatform, hbuf, ⟨hbusy, hdone, herr, hfound⟩, hcode, hlen, hpage, hsum⟩ := hview
  obtain ⟨platform, canonical, bounded, pending, cleared, written, errIff, failed, notFound, pageAligned⟩ := h
  constructor <;> simpa only [hplatform, hbuf, hbusy, hdone, herr, hfound, hcode, hlen, hpage, hsum]

/-! The host's side: accesses, the launch, reset. -/

theorem inv_reply {s : State} (h : s.Inv) (v : Word) : (reply s v).Inv := h.of_view rfl

theorem inv_violate {s : State} (h : s.Inv) : (violate s).Inv := h.of_view rfl

theorem inv_inbox {s : State} (h : s.Inv) (l : List HostEvent) : ({ s with inbox := l } : State).Inv := h.of_view rfl

/-- R47: the launch clears every result and leaves BUF. -/
theorem inv_launch {s : State} (h : s.Inv) (w : Word) : (launch s w).Inv where
  platform := h.platform
  canonical := h.canonical
  bounded := h.bounded
  pending _ := rfl
  cleared _ := ⟨rfl, rfl, rfl, rfl, rfl, rfl⟩
  written := List.mem_cons_self
  errIff := by simp
  failed herr := by simp at herr
  notFound _ := rfl
  pageAligned := rfl

theorem inv_writeReg {s : State} (h : s.Inv) (v : Word) (r : RegName) : (writeReg s v r).Inv := by
  cases r
  case cmd => exact inv_launch h v
  all_goals exact h.of_view rfl

/-- R62: a host write of BUF stays inside BUF. -/
theorem inv_memWrite {s : State} (h : s.Inv) {a n : Nat} (v : Word) (hin : a + n ≤ s.platform.bufBytes) :
    (s.memWrite a n v).Inv where
  platform := h.platform
  canonical := writeBytes_wf h.canonical _ _
  bounded := writeBytes_bounded h.bounded (by rwa [length_putLe])
  pending := h.pending
  cleared := h.cleared
  written := h.written
  errIff := h.errIff
  failed := h.failed
  notFound := h.notFound
  pageAligned := h.pageAligned

/-- R46: right after reset every register is 0 and no byte of BUF is written. -/
theorem inv_resetAt {p : Config.Platform} (hp : p.Wf) (e : Nat) : (State.resetAt p e).Inv where
  platform := hp
  canonical := reset_buf_wf p e
  bounded := nofun
  pending _ := rfl
  cleared _ := ⟨rfl, rfl, rfl, rfl, rfl, rfl⟩
  written := List.mem_cons_self
  errIff := by simp [State.resetAt]
  failed herr := by simp [State.resetAt] at herr
  notFound _ := rfl
  pageAligned := rfl

theorem inv_resetBlock {s : State} (h : s.Inv) : (resetBlock s).Inv :=
  (inv_resetAt h.platform (s.epoch + 1)).of_view rfl

theorem inv_refuseAccess {s : State} (h : s.Inv) (a : Access) : (refuseAccess s a).Inv := by
  rcases refuseAccess_eq s a with e | e <;> rw [e]
  · exact inv_violate h
  · exact inv_reply (inv_violate h) 0

theorem inv_regAccess {s : State} (h : s.Inv) (a : Access) : (regAccess s a).Inv := by
  rcases regAccess_cases s a with e | ⟨v, e⟩ | ⟨v, e⟩ | e | ⟨-, r, v, e⟩ <;> rw [e]
  · exact inv_violate h
  · exact inv_reply (inv_violate h) v
  · exact inv_reply h v
  · exact h
  · exact inv_writeReg h v r

theorem inv_bufAccess {s : State} (h : s.Inv) (a : Access) : (bufAccess s a).Inv := by
  rcases bufAccess_cases s a with e | ⟨v, e⟩ | ⟨v, e⟩ | ⟨-, addr, n, v, e, hin⟩ <;> rw [e]
  · exact inv_violate h
  · exact inv_reply (inv_violate h) v
  · exact inv_reply h v
  · exact inv_memWrite h v hin

theorem inv_busAccess {s : State} (h : s.Inv) (a : Access) : (busAccess s a).Inv := by
  rcases busAccess_cases s a with e | e | e | e <;> rw [e]
  · exact inv_regAccess h a
  · exact inv_bufAccess h _
  · exact inv_refuseAccess h a
  · exact h

/-! The engine's side: the two ends of a launched command. -/

/-- R281, R296: the code of an error is one that the block writes. -/
theorem CmdError.code_mem_writtenCodes (e : CmdError) : e.code ∈ writtenCodes := by
  cases e <;> decide

/-- R284: the error end leaves the results as the launch cleared them. -/
theorem inv_errorEnd {s : State} (h : s.Inv) (hbusy : s.status.busy = true) (e : CmdError) : (errorEnd s e).Inv := by
  obtain ⟨hlen, hpage, hsum, hfound⟩ := h.results_cleared hbusy
  exact {
    platform := h.platform
    canonical := h.canonical
    bounded := h.bounded
    pending := nofun
    cleared := nofun
    written := e.code_mem_writtenCodes
    errIff := ⟨fun _ => e.code_ne_zero, fun _ => rfl⟩
    failed := fun _ => ⟨hfound, hlen, hpage, hsum⟩
    notFound := fun _ => hpage
    pageAligned := h.pageAligned }

/-- R200: what locate answers is the offset of a whole page of the image. -/
theorem locate_ok_inv {img : List Byte} {sid ver o : Nat} (h : locate img sid ver = .ok o) :
    img.length % 2048 = 0 ∧ ∃ p, o = 2048 * p ∧ Picked img sid ver (img.length / 2048) p := by
  by_cases hwhole : img.length % 2048 = 0
  · rcases locate_cases sid ver hwhole with ⟨herr, -⟩ | ⟨p, hok, hpicked⟩
    · rw [herr] at h
      cases h
    · rw [hok] at h
      cases h
      exact ⟨hwhole, p, rfl, hpicked⟩
  · rw [locate_badImageLength sid ver hwhole] at h
    cases h

/-- R234: patch answers the offset that locate answered. -/
theorem locate_of_patch_ok {img uri : List Byte} {sid ver off : Nat} {r : Patched}
    (h : patch img sid ver uri off = .ok r) : locate img sid ver = .ok r.page := by
  unfold patch at h
  repeat' split at h
  all_goals cases h
  assumption

/-- A command that answers a page answers a page's offset (R43, R100). -/
theorem unitResult_page_aligned {s : State} {i : Instr} {res : Results} {o : Nat} (h : unitResult s i = .ok res)
    (hpage : res.page = some o) : o % 2048 = 0 := by
  have hlocated : ∀ {img sid ver}, locate img sid ver = .ok o → o % 2048 = 0 := fun hok => by
    obtain ⟨-, p, rfl, -⟩ := locate_ok_inv hok
    exact Nat.mul_mod_right 2048 p
  have houtput : ∀ r, outputOnly r = .ok res → o % 2048 = 0 := fun r hr => by
    cases r <;> cases hr
    cases hpage
  cases i with
  | locateSlot =>
    simp only [unitResult] at h
    split at h <;> cases h
    cases hpage
    exact hlocated ‹_›
  | patch =>
    simp only [unitResult] at h
    split at h <;> cases h
    rename_i r hr
    cases hpage
    exact hlocated (locate_of_patch_ok hr)
  | checksum => cases h; cases hpage
  | uf2Decode => exact houtput _ h
  | uf2Encode => exact houtput _ h
  | siUnpack => exact houtput _ h
  | siPack => exact houtput _ h

/-- R285: a success end sets PAGE_OFFSET only together with FOUND, and only to a page's offset. -/
theorem successEnd_page {s : State} {i : Instr} {res : Results} (h : unitResult s i = .ok res)
    (hpage : s.pageOffset = 0) :
    ((successEnd s res).status.found = false → (successEnd s res).pageOffset = 0) ∧
      (successEnd s res).pageOffset.toNat % 2048 = 0 := by
  cases hres : res.page with
  | none => simp [hres, hpage]
  | some o =>
    have haligned := unitResult_page_aligned h hres
    simp [hres]
    omega

theorem inv_exec {i : Instr} {s t : State} (h : s.Inv) (hbusy : s.status.busy = true) (hexec : exec i s = .next t) :
    t.Inv := by
  have hcanonical := exec_buf_wf hexec h.canonical
  have hbounded := exec_buf_bounded hexec h.bounded
  rcases exec_cases hexec with ⟨e, rfl⟩ | ⟨res, -, hunit, rfl, -⟩
  · exact inv_errorEnd h hbusy e
  · obtain ⟨-, hpage, -, -⟩ := h.results_cleared hbusy
    obtain ⟨hnotFound, haligned⟩ := successEnd_page hunit hpage
    exact {
      platform := h.platform
      canonical := hcanonical
      bounded := hbounded
      pending := nofun
      cleared := nofun
      written := List.mem_cons_self
      errIff := by simp
      failed := nofun
      notFound := hnotFound
      pageAligned := haligned }

theorem inv_engineStep {s t : State} (h : s.Inv) (hbusy : s.status.busy = true) (hstep : engineStep s = .next t) :
    t.Inv := by
  rcases engineStep_cases hstep with ⟨i, -, hexec⟩ | ⟨-, rfl⟩
  · exact inv_exec h hbusy hexec
  · exact inv_errorEnd h hbusy _

theorem inv_engineTurn {s t : State} (h : s.Inv) (hturn : engineTurn s = .next t) : t.Inv := by
  cases hbusy : s.status.busy with
  | true => exact inv_engineStep h hbusy (engineTurn_of_busy hbusy ▸ hturn)
  | false =>
    rw [engineTurn_of_idle hbusy] at hturn
    cases hturn
    exact h

/-- Settles O20: a step is the engine's turn or a host entry's, and each keeps the invariant. -/
theorem stepKeepsInvariant : Obligations.StepKeepsInvariant := by
  intro s t h hstep
  rcases hin : s.inbox with _ | ⟨e, rest⟩
  · exact inv_engineTurn h (step_nil hin ▸ hstep)
  have hrest := inv_inbox h rest
  cases e with
  | bus a => cases (step_cons hin).symm.trans hstep; exact inv_busAccess hrest a
  | bufPort a => cases (step_cons hin).symm.trans hstep; exact inv_bufAccess hrest a
  | reset => cases (step_cons hin).symm.trans hstep; exact inv_resetBlock hrest
  | engineTurn => exact inv_engineTurn hrest ((step_cons hin).symm.trans hstep)
  | poll =>
    cases hbusy : s.status.busy with
    | true => exact inv_engineStep h hbusy ((step_poll_of_busy hbusy hin).symm.trans hstep)
    | false => cases (step_poll_of_idle hbusy hin).symm.trans hstep; exact inv_reply hrest _

/-- Settles O21: `inv_resetAt`, and the example platform meets R5. -/
theorem resetMeetsInvariant : Obligations.ResetMeetsInvariant :=
  ⟨fun _ e hp => inv_resetAt hp e, inv_resetAt (by decide) 0⟩

/-- Settles O22: the launch cleared the results, and of STATUS it leaves only HVIOL open. -/
theorem resultsReadZeroWhileBusy : Obligations.ResultsReadZeroWhileBusy := by
  intro s h hbusy
  have hdone := h.pending hbusy
  obtain ⟨herr, hfound, hcode, hlen, hpage, hsum⟩ := h.cleared hdone
  simp only [regRead, regAt?, Option.map_some, Option.getD_some, readReg, hcode, hlen, hpage, hsum, Status.toWord, hbusy,
    hdone, herr, hfound]
  cases s.status.hviol <;> decide

end Sys2Proof.Machine
end

section
/-! PROOF. The host's two ports: the register window (R25 to R45, R61), the BUF host port (R62), the routing of a host address
to one of them (R60), and what a refused access does (R29). -/

namespace Sys2Proof.Machine

/-! Words of the register window. -/

/-- Settles O11: every word but STATUS is its register as it stands; STATUS is bit by bit. -/
theorem registerWindowReads : Obligations.RegisterWindowReads := by
  intro s
  obtain ⟨hbusy, hdone, herr, hfound, hhviol⟩ := s.status.toWord_bits
  exact ⟨rfl, ⟨hbusy, hdone, herr, hfound, hhviol, fun _ => s.status.toWord_high⟩, rfl, rfl, rfl, rfl, rfl, rfl, rfl, rfl,
    rfl, rfl, rfl, rfl, rfl, rfl⟩

/-- R45: a write of an offset that holds no register does nothing. -/
theorem regWrite_reserved {s : State} {off : Nat} (hidle : s.status.busy = false) (hoff : regAt? off = none) (v : Word) :
    regWrite s off v = s := by
  simp [regWrite, hidle, hoff]

/-- R42: SLOT_SEL reads back without bits 31:16. -/
theorem setWidth_setWidth_eq_and (v : Word) : (v.setWidth 16).setWidth 32 = v &&& 0x0000FFFF#32 := by
  apply BitVec.eq_of_toNat_eq
  have hmask : v.toNat &&& (0x0000FFFF#32).toNat = v.toNat % 2 ^ 16 := Nat.and_two_pow_sub_one_eq_mod v.toNat 16
  rw [BitVec.toNat_setWidth, BitVec.toNat_setWidth, BitVec.toNat_and, hmask]
  omega

/-- Settles O12: a write of a register's offset is `writeReg` of the register. -/
theorem registerWindowWrites : Obligations.RegisterWindowWrites := by
  intro s v hidle
  have hwrite := fun r => regWrite_offset_of_idle hidle r v
  refine ⟨hwrite .srcAddr, hwrite .srcLen, hwrite .dstAddr, hwrite .recAddr, hwrite .recOffset, hwrite .baseAddr,
    hwrite .familyId, ⟨hwrite .slotSel, ?_⟩, ?_⟩
  · refine (congrArg (regRead · 0x2C) (hwrite .slotSel)).trans ?_
    exact setWidth_setWidth_eq_and v
  · simp only [List.forall_mem_cons]
    exact ⟨hwrite .status, hwrite .errcode, hwrite .dstLen, hwrite .pageOffset, hwrite .checksum,
      regWrite_reserved hidle rfl v, regWrite_reserved hidle rfl v, nofun⟩

/-! Accesses of the register window. -/

theorem busAccess_of_window {s : State} {a : Access} (hlow : s.platform.blockBase ≤ a.addr)
    (hhigh : a.addr < s.platform.blockBase + 64) : busAccess s a = regAccess s a := by
  have hwide := Nat.le_max_right a.width 1
  have htouches : touches s.platform.blockBase Config.windowBytes a = true :=
    (touches_iff _ _ _).2 ⟨hhigh, by omega⟩
  rw [busAccess, if_pos htouches]

/-- R61: all but an aligned access of four bytes is refused. -/
theorem regAccess_of_misfit {s : State} {a : Access} (hmisfit : ¬ (a.width = 4 ∧ a.addr % 4 = 0)) :
    regAccess s a = refuseAccess s a := by
  unfold regAccess
  exact if_neg hmisfit

theorem busAccess_misfit {s : State} {a : Access} (hlow : s.platform.blockBase ≤ a.addr)
    (hhigh : a.addr < s.platform.blockBase + 64) (hmisfit : ¬ (a.width = 4 ∧ a.addr % 4 = 0)) :
    busAccess s a = refuseAccess s a :=
  (busAccess_of_window hlow hhigh).trans (regAccess_of_misfit hmisfit)

section
variable {s : State} (hp : s.platform.Wf) {k : Nat} (hk : k < 16)
include hp hk

theorem busAccess_of_word {a : Access} (haddr : a.addr = s.platform.blockBase + 4 * k) :
    busAccess s a = regAccess s a ∧ a.addr % 4 = 0 := by
  obtain ⟨-, -, haligned, -⟩ := hp
  exact ⟨busAccess_of_window (by omega) (by omega), by omega⟩

/-- R61: word `k` of the window, read on the bus. -/
theorem busAccess_read_word :
    busAccess s (.read (s.platform.blockBase + 4 * k) 4) = reply s (regRead s (4 * k)) := by
  obtain ⟨hroute, hword⟩ := busAccess_of_word hp hk (a := .read (s.platform.blockBase + 4 * k) 4) rfl
  rw [hroute, regAccess, if_pos ⟨rfl, hword⟩, Nat.add_sub_cancel_left]

/-- R61: word `k` of the window, written on the bus. -/
theorem busAccess_write_word (v : Word) :
    busAccess s (.write (s.platform.blockBase + 4 * k) 4 v) = regWrite s (4 * k) v := by
  obtain ⟨hroute, hword⟩ := busAccess_of_word hp hk (a := .write (s.platform.blockBase + 4 * k) 4 v) rfl
  rw [hroute, regAccess, if_pos ⟨rfl, hword⟩, Nat.add_sub_cancel_left]

end

/-- Settles O10: aligned words by the two lemmas above, every other access by the refusal. -/
theorem registerWindowAccess : Obligations.RegisterWindowAccess := by
  refine fun s rest hp => ⟨fun k hk hin => ?_, fun k hk v hin => ?_, fun addr n hlow hhigh hmisfit =>
    ⟨fun hin => ?_, fun v hin => ?_⟩⟩ <;> rw [step_cons hin]
  · exact congrArg _ (busAccess_read_word (s := { s with inbox := rest }) hp hk)
  · exact congrArg _ (busAccess_write_word (s := { s with inbox := rest }) hp hk v)
  · exact congrArg _ (busAccess_misfit (s := { s with inbox := rest }) (a := .read addr n) hlow hhigh hmisfit)
  · exact congrArg _ (busAccess_misfit (s := { s with inbox := rest }) (a := .write addr n v) hlow hhigh hmisfit)

/-! The BUF host port. -/

/-- R62: when the port refuses an access. -/
theorem bufAccess_of_refused {s : State} {a : Access}
    (h : s.status.busy = true ∨ ¬ (a.width = 1 ∨ a.width = 2 ∨ a.width = 4) ∨ s.platform.bufBytes < a.addr + a.width) :
    bufAccess s a = refuseAccess s a := by
  unfold bufAccess
  exact if_pos h

section
variable {s : State} {a n : Nat} (hidle : s.status.busy = false) (hn : n = 1 ∨ n = 2 ∨ n = 4)
  (hin : a + n ≤ s.platform.bufBytes)
include hidle hn hin

theorem bufPort_admits :
    ¬ (s.status.busy = true ∨ ¬ (n = 1 ∨ n = 2 ∨ n = 4) ∨ s.platform.bufBytes < a + n) := by
  simp [hidle, hn, hin]

theorem bufAccess_read_inside : bufAccess s (.read a n) = reply s (s.memRead a n) := by
  unfold bufAccess
  exact if_neg (bufPort_admits hidle hn hin)

theorem bufAccess_write_inside (v : Word) : bufAccess s (.write a n v) = s.memWrite a n v := by
  unfold bufAccess
  exact if_neg (bufPort_admits hidle hn hin)

end

/-- R9, R63: the number of a little-endian byte sequence as a sum. -/
theorem leNat_eq_sumBelow : ∀ l : List Byte, leNat l = sumBelow (fun k => (l.getD k 0).toNat * 256 ^ k) l.length
  | [] => rfl
  | b :: l => by
    have hrest : sumBelow (fun k => ((b :: l).getD (1 + k) 0).toNat * 256 ^ (1 + k)) l.length = leNat l * 256 := by
      rw [leNat_eq_sumBelow l, ← sumBelow_mul]
      refine sumBelow_congr _ fun k _ => ?_
      rw [Nat.add_comm 1 k, List.getD_cons_succ, pow_succ, Nat.mul_assoc]
    have hfirst : sumBelow (fun k => ((b :: l).getD k 0).toNat * 256 ^ k) 1 = b.toNat := by simp [sumBelow]
    rw [leNat, List.length_cons, Nat.add_comm l.length 1, sumBelow_add, hfirst, hrest, Nat.mul_comm 256]

/-- R10: a host read of BUF byte by byte. -/
theorem memRead_eq_sumBelow (s : State) (a n : Nat) :
    s.memRead a n = BitVec.ofNat 32 (sumBelow (fun k => (s.byteAt (a + k)).toNat * 256 ^ k) n) := by
  rw [State.memRead, leNat_eq_sumBelow, length_bytes]
  refine congrArg _ (sumBelow_congr n fun k hk => ?_)
  rw [bytes_getD _ _ _ _ hk]

/-- R10: byte `k` of the value that a host write stores. -/
theorem putLe_getD_eq_setWidth (v : Word) {n k : Nat} (hk : k < n) :
    (putLe n v.toNat).getD k 0 = (v >>> (8 * k)).setWidth 8 := by
  apply BitVec.eq_of_toNat_eq
  have hpow : 2 ^ (8 * k) = 256 ^ k := pow_mul 2 8 k
  rw [putLe_getD _ _ _ hk, BitVec.toNat_setWidth, BitVec.toNat_ushiftRight, Nat.shiftRight_eq_div_pow, hpow]

/-- A host write of BUF, byte by byte of the value. -/
theorem byteAt_memWrite (s : State) (a n : Nat) (v : Word) (x : Nat) :
    (s.memWrite a n v).byteAt x =
      if a ≤ x ∧ x < a + n then (v >>> (8 * (x - a))).setWidth 8 else s.byteAt x := by
  have hwrote := memWrite_wroteExactly s a n v x
  rw [length_putLe] at hwrote
  rw [hwrote]
  split
  · exact putLe_getD_eq_setWidth v (by omega)
  · rfl

/-- Settles O13: a transaction the port admits reads or writes BUF, any other is refused. -/
theorem bufHostPort : Obligations.BufHostPort := by
  refine fun s rest a n v => ⟨fun hidle hn hin => ⟨fun hread => ?_, fun hwrite => ?_⟩, fun hrefused =>
    ⟨fun hread => ?_, fun hwrite => ?_⟩⟩
  · rw [step_cons hread, hostTurn, bufAccess_read_inside (s := { s with inbox := rest }) hidle hn hin,
      memRead_eq_sumBelow]
    rfl
  · rw [step_cons hwrite, hostTurn, bufAccess_write_inside (s := { s with inbox := rest }) hidle hn hin v]
    exact ⟨_, rfl, rfl, byteAt_memWrite { s with inbox := rest } a n v⟩
  · rw [step_cons hread]
    exact congrArg _ (bufAccess_of_refused (s := { s with inbox := rest }) (a := .read a n) hrefused)
  · rw [step_cons hwrite]
    exact congrArg _ (bufAccess_of_refused (s := { s with inbox := rest }) (a := .write a n v) hrefused)

/-! Routing. -/

theorem fromBase_width (base : Nat) (a : Access) : (a.fromBase base).width = a.width := by cases a <;> rfl

theorem fromBase_addr (base : Nat) (a : Access) : (a.fromBase base).addr = a.addr - base := by cases a <;> rfl

/-- A refused access is refused alike at every address. -/
theorem refuseAccess_fromBase (s : State) (base : Nat) (a : Access) :
    refuseAccess s (a.fromBase base) = refuseAccess s a := by cases a <;> rfl

/-- R60: a transaction that begins in BUF is the BUF port's. One that runs on into the register window lies past the end of
BUF, where both ports refuse it: the window because it is not aligned or not of four bytes (entry 9). -/
theorem busAccess_of_buf {s : State} {a : Access} (hp : s.platform.Wf) (hlow : s.platform.bufBase ≤ a.addr)
    (hhigh : a.addr < s.platform.bufBase + s.platform.bufBytes) :
    busAccess s a = bufAccess s (a.fromBase s.platform.bufBase) := by
  obtain ⟨-, -, haligned, hdisjoint⟩ := hp
  simp only [Config.windowBytes] at hdisjoint
  by_cases hwindow : touches s.platform.blockBase Config.windowBytes a = true
  · obtain ⟨hbelow, hreaches⟩ := (touches_iff _ _ _).1 hwindow
    simp only [Config.windowBytes] at hbelow
    have hmisfit : ¬ (a.width = 4 ∧ a.addr % 4 = 0) := by omega
    have hpast : s.platform.bufBytes < (a.fromBase s.platform.bufBase).addr + (a.fromBase s.platform.bufBase).width := by
      rw [fromBase_addr, fromBase_width]
      omega
    rw [busAccess, if_pos hwindow, regAccess_of_misfit hmisfit, bufAccess_of_refused (.inr (.inr hpast)),
      refuseAccess_fromBase]
  · have hwide := Nat.le_max_right a.width 1
    have hbuf : touches s.platform.bufBase s.platform.bufBytes a = true := (touches_iff _ _ _).2 ⟨hhigh, by omega⟩
    rw [busAccess, if_neg hwindow, if_pos hbuf, if_neg (Nat.not_lt.2 hlow)]

theorem busAccess_at_bufBase {s : State} {a : Access} (hp : s.platform.Wf) (ha : a.addr < s.platform.bufBytes)
    {b : Access} (haddr : b.addr = s.platform.bufBase + a.addr) (hbase : b.fromBase s.platform.bufBase = a) :
    busAccess s b = bufAccess s a := by
  rw [busAccess_of_buf hp (by omega) (by omega), hbase]

/-- Settles O14: BUF_BASE + a, counted from BUF_BASE, is BUF address a. -/
theorem bufWindowRouting : Obligations.BufWindowRouting := by
  intro s rest a n v hp ha
  have hback := Nat.add_sub_cancel_left s.platform.bufBase a
  exact ⟨congrArg Host.Outcome.next (busAccess_at_bufBase (s := { s with inbox := rest }) (a := .read a n)
      (b := .read (s.platform.bufBase + a) n) hp ha rfl (congrArg (Access.read · n) hback)),
    congrArg Host.Outcome.next (busAccess_at_bufBase (s := { s with inbox := rest }) (a := .write a n v)
      (b := .write (s.platform.bufBase + a) n v) hp ha rfl (congrArg (Access.write · n v) hback))⟩

/-- Settles O15: while busy the register window refuses writes and the BUF port everything; reads of the window stay. -/
theorem busyWindow : Obligations.BusyWindow := by
  intro s off a n v hbusy
  refine ⟨?_, bufAccess_of_refused (.inl hbusy), bufAccess_of_refused (.inl hbusy), fun hp k hk =>
    busAccess_read_word hp hk⟩
  rw [regWrite, if_pos hbusy]
  rfl

/-! HVIOL. -/

theorem refuseAccess_hviol (s : State) (a : Access) : (refuseAccess s a).status.hviol = true := by cases a <;> rfl

theorem writeReg_hviol (s : State) (v : Word) (r : RegName) : (writeReg s v r).status.hviol = s.status.hviol := by
  cases r <;> rfl

/-- R29: only a refused access of the register window touches HVIOL. -/
theorem regAccess_refused_or_hviol (s : State) (a : Access) :
    regAccess s a = refuseAccess s a ∨ (regAccess s a).status.hviol = s.status.hviol := by
  by_cases hfit : a.width = 4 ∧ a.addr % 4 = 0
  · cases a with
    | read addr n =>
      rw [regAccess, if_pos hfit]
      exact .inr rfl
    | write addr n v =>
      rw [regAccess, if_pos hfit]
      simp only [regWrite]
      split
      · exact .inl rfl
      · cases regAt? (addr - s.platform.blockBase) with
        | none => exact .inr rfl
        | some r => exact .inr (writeReg_hviol s v r)
  · exact .inl (regAccess_of_misfit hfit)

/-- R29: only a refused access of the BUF port touches HVIOL. -/
theorem bufAccess_refused_or_hviol (s : State) (a : Access) :
    bufAccess s a = refuseAccess s a ∨ (bufAccess s a).status.hviol = s.status.hviol := by
  unfold bufAccess
  split
  · exact .inl rfl
  · cases a <;> exact .inr rfl

/-- R29, R288: only a refused transaction touches HVIOL. -/
theorem busAccess_refused_or_hviol (s : State) (a : Access) :
    busAccess s a = refuseAccess s a ∨ (busAccess s a).status.hviol = s.status.hviol := by
  rcases busAccess_cases s a with e | e | e | e <;> rw [e]
  · exact regAccess_refused_or_hviol s a
  · rw [← refuseAccess_fromBase s s.platform.bufBase a]
    exact bufAccess_refused_or_hviol s _
  · exact .inl rfl
  · exact .inr rfl

end Sys2Proof.Machine
end

section
/-! PROOF. The two ends of a command: what they never write (R22, R25, R29, R49), the codes they leave (R281, R282, R285),
that a launched command reaches one of them (R333), and that HVIOL is the host's alone (R29, R288). -/

namespace Sys2Proof.Machine

/-! What no end writes. -/

theorem errorEnd_sameButResults (s : State) (e : CmdError) : SameButResults s (errorEnd s e) :=
  ⟨rfl, rfl, rfl, rfl, rfl, rfl, rfl, rfl, rfl, rfl, rfl, rfl, rfl, rfl⟩

theorem successEnd_sameButResults (s : State) (res : Results) : SameButResults s (successEnd s res) :=
  ⟨rfl, rfl, rfl, rfl, rfl, rfl, rfl, rfl, rfl, rfl, rfl, rfl, rfl, rfl⟩

theorem exec_sameButResults {i : Instr} {s t : State} (hexec : exec i s = .next t) : SameButResults s t := by
  rcases exec_cases hexec with ⟨e, rfl⟩ | ⟨res, -, -, rfl, -⟩
  · exact errorEnd_sameButResults s e
  · exact successEnd_sameButResults s res

theorem engineStep_sameButResults {s t : State} (hstep : engineStep s = .next t) : SameButResults s t := by
  rcases engineStep_cases hstep with ⟨i, -, hexec⟩ | ⟨-, rfl⟩
  · exact exec_sameButResults hexec
  · exact errorEnd_sameButResults s _

theorem SameButResults.refl (s : State) : SameButResults s s :=
  ⟨rfl, rfl, rfl, rfl, rfl, rfl, rfl, rfl, rfl, rfl, rfl, rfl, rfl, rfl⟩

theorem engineTurn_sameButResults {s t : State} (hturn : engineTurn s = .next t) : SameButResults s t := by
  cases hbusy : s.status.busy with
  | true => exact engineStep_sameButResults (engineTurn_of_busy hbusy ▸ hturn)
  | false =>
    cases (engineTurn_of_idle hbusy).symm.trans hturn
    exact .refl s

theorem SameButResults.hviol {s t : State} (h : SameButResults s t) : t.status.hviol = s.status.hviol := by
  obtain ⟨-, -, hhviol, -⟩ := h
  exact hhviol

/-! HVIOL. -/

/-- R29, R288: what a step can do to HVIOL: a host entry is refused, a reset clears it, or it stays. -/
theorem step_hviol_cases {s t : State} (hstep : step s = .next t) :
    (∃ e rest a, s.inbox = e :: rest ∧ t = refuseAccess { s with inbox := rest } a) ∨
      (∃ rest, s.inbox = .reset :: rest ∧ t = resetBlock { s with inbox := rest }) ∨
      t.status.hviol = s.status.hviol := by
  rcases hin : s.inbox with _ | ⟨e, rest⟩
  · exact .inr (.inr (engineTurn_sameButResults (step_nil hin ▸ hstep)).hviol)
  have hturn := (step_cons hin).symm.trans hstep
  cases e with
  | bus a =>
    cases hturn
    rcases busAccess_refused_or_hviol { s with inbox := rest } a with hrefused | hkept
    · exact .inl ⟨_, rest, a, rfl, hrefused⟩
    · exact .inr (.inr hkept)
  | bufPort a =>
    cases hturn
    rcases bufAccess_refused_or_hviol { s with inbox := rest } a with hrefused | hkept
    · exact .inl ⟨_, rest, a, rfl, hrefused⟩
    · exact .inr (.inr hkept)
  | reset =>
    cases hturn
    exact .inr (.inl ⟨rest, rfl, rfl⟩)
  | engineTurn => exact .inr (.inr (engineTurn_sameButResults hturn).hviol)
  | poll =>
    refine .inr (.inr ?_)
    cases hbusy : s.status.busy with
    | true => exact (engineStep_sameButResults ((step_poll_of_busy hbusy hin).symm.trans hstep)).hviol
    | false =>
      cases (step_poll_of_idle hbusy hin).symm.trans hstep
      rfl

/-- Settles O16: only a refusal turns HVIOL on, and only a reset turns it off. -/
theorem hostViolationOnlySetsHviol : Obligations.HostViolationOnlySetsHviol := by
  refine ⟨fun s t e rest hin hclear hstep hset => ?_, fun s t hset hstep => ?_⟩
  · rcases step_hviol_cases hstep with ⟨_, rest', a, hin', rfl⟩ | ⟨_, -, rfl⟩ | hkept
    · obtain ⟨-, rfl⟩ := List.cons.inj (hin.symm.trans hin')
      cases a with
      | read addr n => exact ⟨rfl, .inr rfl⟩
      | write addr n v => exact ⟨rfl, .inl rfl⟩
    · cases hset
    · rw [hkept, hclear] at hset
      cases hset
  · rcases step_hviol_cases hstep with ⟨_, _, a, -, rfl⟩ | ⟨rest, hin, -⟩ | hkept
    · exact .inl (refuseAccess_hviol _ a)
    · exact .inr ⟨rest, hin⟩
    · exact .inl (hkept.trans hset)

/-! The operand registers. -/

/-- `t` has the operand registers, CMDL and the platform of `s` (R21, R22, R25). -/
abbrev SameOperands (s t : State) : Prop :=
  t.srcAddr = s.srcAddr ∧ t.srcLen = s.srcLen ∧ t.dstAddr = s.dstAddr ∧ t.recAddr = s.recAddr ∧
    t.recOffset = s.recOffset ∧ t.baseAddr = s.baseAddr ∧ t.familyId = s.familyId ∧ t.slotSel = s.slotSel ∧
    t.cmdl = s.cmdl ∧ t.platform = s.platform

theorem SameButResults.sameOperands {s t : State} (h : SameButResults s t) : SameOperands s t := by
  obtain ⟨hplatform, hcmdl, -, hsrc, hlen, hdst, hrec, hoff, hbase, hfam, hslot, -⟩ := h
  exact ⟨hsrc, hlen, hdst, hrec, hoff, hbase, hfam, hslot, hcmdl, hplatform⟩

/-- The BUF host port reaches no register (R62). -/
theorem bufAccess_sameOperands (s : State) (a : Access) : SameOperands s (bufAccess s a) := by
  rcases bufAccess_cases s a with e | ⟨v, e⟩ | ⟨v, e⟩ | ⟨-, addr, n, v, e, -⟩ <;> rw [e] <;>
    exact ⟨rfl, rfl, rfl, rfl, rfl, rfl, rfl, rfl, rfl, rfl⟩

/-- Settles O19: what is left of the steps is the engine's, a read of STATUS, or the BUF port's. -/
theorem operandRegistersChangeOnlyByHost : Obligations.OperandRegistersChangeOnlyByHost := by
  intro s t hstep hbus hreset
  rcases hin : s.inbox with _ | ⟨e, rest⟩
  · exact (engineTurn_sameButResults (step_nil hin ▸ hstep)).sameOperands
  have hturn := (step_cons hin).symm.trans hstep
  cases e with
  | bus a => exact absurd hin (hbus a rest)
  | reset => exact absurd hin (hreset rest)
  | bufPort a =>
    cases hturn
    exact bufAccess_sameOperands { s with inbox := rest } a
  | engineTurn => exact (engineTurn_sameButResults hturn).sameOperands
  | poll =>
    cases hbusy : s.status.busy with
    | true => exact (engineStep_sameButResults ((step_poll_of_busy hbusy hin).symm.trans hstep)).sameOperands
    | false =>
      cases (step_poll_of_idle hbusy hin).symm.trans hstep
      exact ⟨rfl, rfl, rfl, rfl, rfl, rfl, rfl, rfl, rfl, rfl⟩

/-! The codes a command can end in. -/

/-- R140: the loop of uf2_decode raises two errors. -/
theorem uf2Blocks_error {due : Option Nat} {n : Nat} {img : List Byte} {e : CmdError}
    (h : uf2Blocks due n img = .error e) : e = .nonContiguous ∨ e = .payloadSizeRange := by
  induction n generalizing due img with
  | zero => cases h
  | succ n ih =>
    rw [uf2Blocks] at h
    repeat' split at h
    · cases h; exact .inl rfl
    · cases h; exact .inr rfl
    · cases h
    · cases h; exact ih ‹_›

theorem uf2Decode_error_code {img : List Byte} {e : CmdError} (h : uf2Decode img = .error e) :
    e.code ∈ commandCodes .uf2Decode := by
  unfold uf2Decode at h
  split at h
  · cases h; decide
  · rcases uf2Blocks_error h with rfl | rfl <;> decide

theorem uf2Encode_error_code {p : List Byte} {base fam : Word} {e : CmdError} (h : uf2Encode p base fam = .error e) :
    e.code ∈ commandCodes .uf2Encode := by
  unfold uf2Encode at h
  simp only at h
  repeat' split at h
  all_goals cases h
  all_goals decide

theorem locate_error {img : List Byte} {sid ver : Nat} {e : CmdError} (h : locate img sid ver = .error e) :
    e = .badImageLength ∨ e = .slotNotResolved := by
  unfold locate at h
  repeat' split at h
  all_goals cases h
  · exact .inl rfl
  · exact .inr rfl

theorem siUnpack_error {page : List Byte} {off : Nat} {e : CmdError} (h : siUnpack page off = .error e) :
    e = .recordOutOfBounds := by
  unfold siUnpack at h
  split at h <;> cases h
  rfl

theorem siPack_error {page uri : List Byte} {off : Nat} {e : CmdError} (h : siPack page uri off = .error e) :
    e = .recordOutOfBounds := by
  unfold siPack at h
  split at h <;> cases h
  rfl

theorem patch_error_code {img uri : List Byte} {sid ver off : Nat} {e : CmdError}
    (h : patch img sid ver uri off = .error e) : e.code ∈ commandCodes .patch := by
  unfold patch at h
  repeat' split at h
  all_goals cases h
  · decide
  · decide
  · rcases locate_error ‹_› with rfl | rfl <;> decide
  · rename_i hpack
    rw [siPack_error hpack]; decide

theorem outputOnly_error {r : Except CmdError (List Byte)} {e : CmdError} (h : outputOnly r = .error e) :
    r = .error e := by
  cases r <;> cases h
  rfl

theorem onePage_error {len : Nat} {r : Except CmdError (List Byte)} {e : CmdError} (h : onePage len r = .error e) :
    e = .badPageLength ∨ r = .error e := by
  unfold onePage at h
  split at h
  · exact .inr h
  · cases h; exact .inl rfl

/-- R282: the errors of a command's own rules. -/
theorem unitResult_error_code {s : State} {i : Instr} {e : CmdError} (h : unitResult s i = .error e) :
    e.code ∈ commandCodes i := by
  cases i with
  | uf2Decode => exact uf2Decode_error_code (outputOnly_error h)
  | uf2Encode => exact uf2Encode_error_code (outputOnly_error h)
  | checksum => cases h
  | locateSlot =>
    simp only [unitResult] at h
    split at h <;> cases h
    rcases locate_error ‹_› with rfl | rfl <;> decide
  | siUnpack =>
    rcases onePage_error (outputOnly_error h) with rfl | herr
    · decide
    · rw [siUnpack_error herr]; decide
  | siPack =>
    rcases onePage_error (outputOnly_error h) with rfl | herr
    · decide
    · rw [siPack_error herr]; decide
  | patch =>
    simp only [unitResult] at h
    split at h <;> cases h
    exact patch_error_code ‹_›

/-- R282: every command checks its regions. -/
theorem regionError_code_mem (i : Instr) : CmdError.regionError.code ∈ commandCodes i := by
  cases i <;> decide

/-- R48, R283: the error end of a command is one of its own rules' or of a region check. -/
theorem exec_end_cases {i : Instr} {s t : State} (hexec : exec i s = .next t) :
    (∃ e, t = errorEnd s e ∧ e.code ∈ commandCodes i) ∨ ∃ res, t = successEnd s res := by
  rw [exec_eq] at hexec
  cases hexec
  split
  · cases hunit : unitResult s i with
    | error e => exact .inl ⟨e, rfl, unitResult_error_code hunit⟩
    | ok res =>
      simp only [finish]
      split
      · exact .inr ⟨res, rfl⟩
      · split
        · exact .inr ⟨res, rfl⟩
        · exact .inl ⟨_, rfl, regionError_code_mem i⟩
  · exact .inl ⟨_, rfl, regionError_code_mem i⟩

/-- Settles O49: both ends set DONE and clear BUSY. -/
theorem commandEndCodes : Obligations.CommandEndCodes := by
  intro i s t hexec
  rcases exec_end_cases hexec with ⟨e, rfl, hcode⟩ | ⟨res, rfl⟩
  · exact ⟨rfl, rfl, .inr ⟨rfl, hcode⟩⟩
  · exact ⟨rfl, rfl, .inl ⟨rfl, rfl⟩⟩

/-! A launched command completes. -/

/-- R48, R92: the engine's step always answers, and leaves the block done and idle. -/
theorem engineStep_completes (s : State) :
    ∃ t, engineStep s = .next t ∧ t.status.busy = false ∧ t.status.done = true := by
  cases hword : decodeWord s.cmdl with
  | ok i =>
    rw [engineStep_of_decodeWord hword]
    obtain ⟨hdone, hidle, -⟩ := commandEndCodes i s _ (exec_eq i s)
    exact ⟨_, exec_eq i s, hidle, hdone⟩
  | error e => exact ⟨errorEnd s .illegalCommand, by simp only [engineStep, hword], rfl, rfl⟩

theorem core_run_one {s t : State} (hstep : step s = .next t) : core.run 1 s = .next t :=
  run_succ 0 hstep

/-- What stands before the engine in a list that begins with another entry. -/
theorem beforeEngine_cons {s s' : State} {e : HostEvent} {rest : List HostEvent} (hin : s.inbox = e :: rest)
    (he : e ≠ .engineTurn ∧ e ≠ .poll) (hrest : s'.inbox = rest) : s.beforeEngine = e :: s'.beforeEngine := by
  rw [State.beforeEngine, State.beforeEngine, hin, hrest]
  exact List.takeWhile_cons_of_pos (decide_eq_true he)

theorem beforeEngine_engine {s : State} {e : HostEvent} {rest : List HostEvent} (hin : s.inbox = e :: rest)
    (he : ¬ (e ≠ .engineTurn ∧ e ≠ .poll)) : s.beforeEngine = [] := by
  rw [State.beforeEngine, hin]
  exact List.takeWhile_cons_of_neg (by simpa using he)

/-- R29, R47: a transaction leaves a busy block busy, so the command goes on waiting for the engine. -/
theorem step_transaction_of_busy {s : State} {e : HostEvent} {rest : List HostEvent} (hbusy : s.status.busy = true)
    (hin : s.inbox = e :: rest) (he : e ≠ .engineTurn ∧ e ≠ .poll) (hreset : e ≠ .reset) :
    ∃ s', step s = .next s' ∧ s'.status.busy = true ∧ s'.inbox = rest := by
  have hbusy' : ({ s with inbox := rest } : State).status.busy = true := hbusy
  rw [step_cons hin]
  cases e with
  | bus a => exact ⟨_, rfl, busAccess_busy hbusy' a⟩
  | bufPort a => exact ⟨_, rfl, bufAccess_busy hbusy' a⟩
  | poll => exact absurd rfl he.2
  | reset => exact absurd rfl hreset
  | engineTurn => exact absurd rfl he.1

/-- The step of a busy block at which the engine moves. -/
theorem step_engine_completes {s : State} (hbusy : s.status.busy = true)
    (hengine : s.inbox = [] ∨ ∃ e rest, s.inbox = e :: rest ∧ ¬ (e ≠ .engineTurn ∧ e ≠ .poll)) :
    ∃ t, step s = .next t ∧ t.status.busy = false ∧ t.status.done = true := by
  rcases hengine with hnil | ⟨e, rest, hin, he⟩
  · rw [step_nil hnil, engineTurn_of_busy hbusy]
    exact engineStep_completes s
  · have heither : e = .engineTurn ∨ e = .poll := by tauto
    rcases heither with rfl | rfl
    · rw [step_cons hin]
      rw [hostTurn, engineTurn_of_busy (s := { s with inbox := rest }) hbusy]
      exact engineStep_completes _
    · rw [step_poll_of_busy hbusy hin]
      exact engineStep_completes s

/-- Settles O9, by induction on the host's list: a transaction leaves the command launched, and where the engine moves it
completes. -/
theorem launchedCommandCompletes : Obligations.LaunchedCommandCompletes := by
  intro s hbusy hreset
  induction hin : s.inbox generalizing s with
  | nil =>
    obtain ⟨t, hstep, hend⟩ := step_engine_completes hbusy (.inl hin)
    have hnone : s.beforeEngine = [] := by rw [State.beforeEngine, hin, List.takeWhile_nil]
    rw [hnone]
    exact ⟨t, core_run_one hstep, hend⟩
  | cons e rest ih =>
    by_cases he : e ≠ .engineTurn ∧ e ≠ .poll
    · rw [beforeEngine_cons (s' := { s with inbox := rest }) hin he rfl, List.mem_cons, not_or] at hreset
      obtain ⟨hhead, htail⟩ := hreset
      obtain ⟨s', hstep, hbusy', hrest⟩ := step_transaction_of_busy hbusy hin he (Ne.symm hhead)
      have hbefore := beforeEngine_cons hin he hrest
      obtain ⟨t, hrun, hend⟩ := ih s' hbusy' (by rw [State.beforeEngine, hrest]; exact htail) hrest
      refine ⟨t, ?_, hend⟩
      rw [hbefore, List.length_cons, run_succ _ hstep, hrun]
    · obtain ⟨t, hstep, hend⟩ := step_engine_completes hbusy (.inr ⟨e, rest, hin, he⟩)
      rw [beforeEngine_engine hin he]
      exact ⟨t, core_run_one hstep, hend⟩

end Sys2Proof.Machine
end

section
/-! PROOF. What every command leaves of BUF (R24, R48, R64, R65), what it depends on (R23, R49), and the form of a success
end. -/

namespace Sys2Proof.Machine

/-! BUF after an output was written. -/

theorem WroteExactly.inside {s t : State} {d k : Nat} {out : List Byte} (h : WroteExactly s t d out)
    (hk : k < out.length) : t.byteAt (d + k) = out.getD k 0 := by
  rw [h, if_pos (by omega), Nat.add_sub_cancel_left]

theorem WroteExactly.outside {s t : State} {d a : Nat} {out : List Byte} (h : WroteExactly s t d out)
    (ha : a < d ∨ d + out.length ≤ a) : t.byteAt a = s.byteAt a := by
  rw [h, if_neg (by omega)]

/-- A little-endian field inside the output is the 32-bit number at its BUF address. -/
theorem WroteExactly.le32At {s t : State} {d o : Nat} {out : List Byte} (h : WroteExactly s t d out)
    (ho : o + 4 ≤ out.length) : t.le32At (d + o) = le32 out o := by
  rw [le32_eq _ _ ho, State.le32At]
  simp only [Nat.add_assoc]
  rw [h.inside (by omega), h.inside (by omega), h.inside (by omega), h.inside (by omega)]

/-! The commands whose only result is an output. -/

theorem outputOnly_ok {r : Except CmdError (List Byte)} {res : Results} (h : outputOnly r = .ok res) :
    ∃ out, r = .ok out ∧ res = { out := some out } := by
  cases r <;> cases h
  exact ⟨_, rfl, rfl⟩

/-- R48, R285: the success end of a command whose only result is an output whose region is allowed. -/
theorem exec_output_completes {i : Instr} {s : State} {out : List Byte} (hin : inputsInside s (inputRegions s i) = true)
    (hunit : unitResult s i = .ok { out := some out })
    (hallowed : outputAllowed s (inputRegions s i) out.length = true) :
    ∃ t, exec i s = .next t ∧
      t = s.succeededWith t.buf (BitVec.ofNat 32 out.length) s.pageOffset s.checksum s.status.found ∧
      WroteExactly s t s.dst out := by
  refine ⟨_, exec_unit_ok hin hunit fun bs hbs => ?_, rfl, successEnd_wroteExactly s _⟩
  cases hbs
  exact hallowed

/-! How long an output can be. -/

/-- R140, R144, R231, R233, R235: of an empty SRC region no command makes an output byte. -/
theorem unitResult_out_of_srcN_zero {s : State} {i : Instr} {res : Results} (hunit : unitResult s i = .ok res)
    (hzero : s.srcN = 0) : res.out.getD [] = [] := by
  have hregion : s.region (srcRegion s) = [] := List.eq_nil_of_length_eq_zero ((length_region s _).trans hzero)
  cases i with
  | uf2Decode =>
    rw [unitResult, hregion] at hunit
    cases hunit; rfl
  | uf2Encode =>
    rw [unitResult, hregion] at hunit
    cases hunit; rfl
  | checksum => cases hunit; rfl
  | locateSlot =>
    simp only [unitResult] at hunit
    split at hunit <;> cases hunit
    rfl
  | siUnpack =>
    rw [unitResult, show s.srcLen.toNat = 0 from hzero] at hunit
    cases hunit
  | siPack =>
    rw [unitResult, show s.srcLen.toNat = 0 from hzero] at hunit
    cases hunit
  | patch =>
    simp only [unitResult, hregion] at hunit
    split at hunit <;> cases hunit
    rename_i r hpatch
    obtain ⟨-, p, -, hp, -⟩ := locate_ok_inv (locate_of_patch_ok hpatch)
    exact absurd hp (Nat.not_lt_zero p)

theorem srcRegion_mem_inputRegions (s : State) (i : Instr) : srcRegion s ∈ inputRegions s i := by
  cases i <;> exact List.mem_cons_self

/-- On a platform that meets R5 no allowed output has 2^32 bytes: it would fill BUF and meet its own input (entry 19). -/
theorem output_length_lt {s : State} {i : Instr} {res : Results} (hp : s.platform.Wf)
    (hin : inputsInside s (inputRegions s i) = true) (hunit : unitResult s i = .ok res)
    (hallowed : ∀ bs, res.out = some bs → outputAllowed s (inputRegions s i) bs.length = true) :
    (res.out.getD []).length < 2 ^ 32 := by
  obtain ⟨-, hsize, -, -⟩ := hp
  by_cases hzero : s.srcN = 0
  · rw [unitResult_out_of_srcN_zero hunit hzero]
    decide
  cases hout : res.out with
  | none => decide
  | some bs =>
    obtain ⟨hfits, hclear⟩ := (outputAllowed_iff _ _ _).1 (hallowed bs hout)
    have hsrc := (inputsInside_iff _ _).1 hin _ (srcRegion_mem_inputRegions s i)
    have hapart := hclear _ (srcRegion_mem_inputRegions s i)
    rw [← Bool.not_eq_true, overlaps_iff] at hapart
    simp only [srcRegion, dstRegion, State.srcN, Option.getD_some] at *
    omega

/-! The frames. -/

/-- R49: only LOCATE_SLOT and PATCH answer a page, only CHECKSUM and PATCH a checksum. -/
theorem unitResult_page_sum {s : State} {i : Instr} {res : Results} (hunit : unitResult s i = .ok res) :
    (i ≠ .locateSlot → i ≠ .patch → res.page = none) ∧ (i ≠ .checksum → i ≠ .patch → res.sum = none) := by
  have houtput : ∀ r, outputOnly r = .ok res → res.page = none ∧ res.sum = none := fun r hr => by
    obtain ⟨out, -, rfl⟩ := outputOnly_ok hr
    exact ⟨rfl, rfl⟩
  cases i with
  | checksum => cases hunit; exact ⟨fun _ _ => rfl, fun h => absurd rfl h⟩
  | locateSlot =>
    simp only [unitResult] at hunit
    split at hunit <;> cases hunit
    exact ⟨fun h => absurd rfl h, fun _ _ => rfl⟩
  | patch => exact ⟨fun _ h => absurd rfl h, fun _ h => absurd rfl h⟩
  | uf2Decode => exact ⟨fun _ _ => (houtput _ hunit).1, fun _ _ => (houtput _ hunit).2⟩
  | uf2Encode => exact ⟨fun _ _ => (houtput _ hunit).1, fun _ _ => (houtput _ hunit).2⟩
  | siUnpack => exact ⟨fun _ _ => (houtput _ hunit).1, fun _ _ => (houtput _ hunit).2⟩
  | siPack => exact ⟨fun _ _ => (houtput _ hunit).1, fun _ _ => (houtput _ hunit).2⟩

/-- R49: a result that the command does not answer stays as it was. -/
theorem exec_keeps_unlisted_results {i : Instr} {s t : State} (hexec : exec i s = .next t) :
    (i ≠ .locateSlot → i ≠ .patch → t.pageOffset = s.pageOffset ∧ t.status.found = s.status.found) ∧
      (i ≠ .checksum → i ≠ .patch → t.checksum = s.checksum) := by
  rcases exec_cases hexec with ⟨e, rfl⟩ | ⟨res, -, hunit, rfl, -⟩
  · exact ⟨fun _ _ => ⟨rfl, rfl⟩, fun _ _ => rfl⟩
  · obtain ⟨hpage, hsum⟩ := unitResult_page_sum hunit
    refine ⟨fun h1 h2 => ?_, fun h1 h2 => ?_⟩
    · simp [hpage h1 h2]
    · simp [hsum h1 h2]

/-- R24, R48: outside the output region (DST_ADDR, DST_LEN) every command leaves BUF. -/
theorem exec_buf_outside {i : Instr} {s t : State} {a : Nat} (hp : s.platform.Wf) (hexec : exec i s = .next t)
    (ha : a < s.dst ∨ s.dst + t.dstLen.toNat ≤ a) : t.byteAt a = s.byteAt a := by
  rcases exec_cases hexec with ⟨e, rfl⟩ | ⟨res, hin, hunit, rfl, hallowed⟩
  · rfl
  · have hlen := output_length_lt hp hin hunit hallowed
    rw [successEnd_dstLen, BitVec.toNat_ofNat, Nat.mod_eq_of_lt hlen] at ha
    exact (successEnd_wroteExactly s res).outside ha

/-- Settles O45: an error end leaves BUF as it is, a success end all of it outside the output region. -/
theorem storingCommandsFrame : Obligations.StoringCommandsFrame := by
  intro i s t hi hp hexec
  obtain ⟨hpage, hsum⟩ := exec_keeps_unlisted_results hexec
  refine ⟨exec_sameButResults hexec, fun herr a => ?_, fun a => exec_buf_outside hp hexec, fun hpatch => ?_⟩
  · obtain ⟨e, rfl⟩ := eq_errorEnd_of_err hexec herr
    rfl
  · obtain ⟨hoff, hfound⟩ := hpage (by rintro rfl; simp at hi) hpatch
    exact ⟨hoff, hsum (by rintro rfl; simp at hi) hpatch, hfound⟩

/-- R49, R181, R204: CHECKSUM and LOCATE_SLOT answer no output. -/
theorem unitResult_out_none {s : State} {i : Instr} {res : Results} (hi : i = .checksum ∨ i = .locateSlot)
    (hunit : unitResult s i = .ok res) : res.out = none := by
  rcases hi with rfl | rfl
  · cases hunit; rfl
  · simp only [unitResult] at hunit
    split at hunit <;> cases hunit
    rfl

theorem exec_buf_of_no_output {i : Instr} {s t : State} (hi : i = .checksum ∨ i = .locateSlot)
    (hexec : exec i s = .next t) : t.buf = s.buf := by
  rcases exec_cases hexec with ⟨e, rfl⟩ | ⟨res, -, hunit, rfl, -⟩
  · rfl
  · rw [successEnd_buf, unitResult_out_none hi hunit]
    rfl

/-- Settles O46: no output is written, and the results that R49 does not list stay. -/
theorem nonStoringCommandsFrame : Obligations.NonStoringCommandsFrame := by
  intro i s t hi hexec
  have hsame := exec_sameButResults hexec
  have hbuf := exec_buf_of_no_output hi hexec
  obtain ⟨hpage, hsum⟩ := exec_keeps_unlisted_results hexec
  obtain ⟨-, -, -, -, -, -, -, -, -, -, -, hepoch, -⟩ := id hsame
  refine ⟨hsame, hbuf, byteAt_congr hbuf hepoch, ?_, ?_⟩
  · rintro rfl
    exact hpage nofun nofun
  · rintro rfl
    exact hsum nofun nofun

/-! What a command depends on. -/

theorem readsRegister_src (i : Instr) : readsRegister i .srcAddr = true ∧ readsRegister i .srcLen = true := by
  cases i <;> decide

theorem onePage_congr {len : Nat} {r r' : Except CmdError (List Byte)} (h : len = 2048 → r = r') :
    onePage len r = onePage len r' := by
  unfold onePage
  split
  · exact h ‹_›
  · rfl

/-- Two states that show the same bytes in a region read the same sequence there. -/
theorem region_congr {s u : State} {r : Region} (h : ∀ a, r.addr ≤ a → a < r.addr + r.len → u.byteAt a = s.byteAt a) :
    u.region r = s.region r :=
  bytes_congr fun k hk => h _ (by omega) (by omega)

section
variable {i : Instr} {s u : State} (hplatform : u.platform = s.platform)
  (hreg : ∀ r, readsRegister i r = true → readReg u r = readReg s r)
  (hbyte : ∀ a, readsByte s i a → u.byteAt a = s.byteAt a)

include hreg

theorem srcRegion_congr : srcRegion u = srcRegion s := by
  obtain ⟨haddr, hlen⟩ := readsRegister_src i
  exact congrArg₂ (fun (a n : Word) => Region.mk a.toNat n.toNat) (hreg _ haddr) (hreg _ hlen)

theorem recRegion_congr (hrec : readsRegister i .recAddr = true) : recRegion u = recRegion s :=
  congrArg (fun a : Word => Region.mk a.toNat Config.uriBytes) (hreg _ hrec)

/-- R49: the operand registers of a command fix its input regions. -/
theorem inputRegions_congr : inputRegions u i = inputRegions s i := by
  have hsrc := srcRegion_congr hreg
  cases i
  case siPack => rw [inputRegions, inputRegions, hsrc, recRegion_congr hreg rfl]
  case patch => rw [inputRegions, inputRegions, hsrc, recRegion_congr hreg rfl]
  all_goals exact congrArg (fun r => [r]) hsrc

/-- R42, R93: SLOT_SEL fixes the slot id and the version. -/
theorem slotSel_congr (hslot : readsRegister i .slotSel = true) :
    slotId u = slotId s ∧ slotVersion u = slotVersion s := by
  have hword : (u.slotSel.setWidth 32).toNat = (s.slotSel.setWidth 32).toNat := congrArg _ (hreg _ hslot)
  simp only [BitVec.toNat_setWidth] at hword
  have hsel : u.slotSel.toNat = s.slotSel.toNat := by omega
  simp only [slotId, slotVersion, hsel, and_self]

include hbyte

/-- R23, R49: what a command's own rules answer depends on its operand registers and the bytes of its input regions. -/
theorem unitResult_congr : unitResult u i = unitResult s i := by
  have hsrc := srcRegion_congr hreg
  have hbytes : (∀ a, s.src ≤ a → a < s.src + s.srcN → readsByte s i a) →
      u.region (srcRegion s) = s.region (srcRegion s) :=
    fun hreads => region_congr fun a h1 h2 => hbyte a (hreads a h1 h2)
  cases i with
  | uf2Decode =>
    rw [unitResult, unitResult, hsrc, hbytes fun _ h1 h2 => ⟨h1, h2⟩]
  | uf2Encode =>
    have hbase : u.baseAddr = s.baseAddr := hreg .baseAddr rfl
    have hfam : u.familyId = s.familyId := hreg .familyId rfl
    rw [unitResult, unitResult, hsrc, hbytes fun _ h1 h2 => ⟨h1, h2⟩, hbase, hfam]
  | checksum =>
    rw [unitResult, unitResult, hsrc, hbytes fun _ h1 h2 => ⟨h1, h2⟩]
  | locateSlot =>
    obtain ⟨hid, hver⟩ := slotSel_congr hreg rfl
    rw [unitResult, unitResult, hsrc, hbytes fun _ h1 h2 => ⟨h1, h2⟩, hid, hver]
  | siUnpack =>
    have hlen : u.srcLen = s.srcLen := hreg .srcLen rfl
    have hoff : u.recOffset = s.recOffset := hreg .recOffset rfl
    rw [unitResult, unitResult, hsrc, hlen, hoff]
    refine congrArg outputOnly (onePage_congr fun hpage => ?_)
    rw [region_congr fun a h1 h2 => hbyte a ⟨h1, h2.trans_eq (congrArg _ hpage)⟩]
  | siPack =>
    have hlen : u.srcLen = s.srcLen := hreg .srcLen rfl
    have hoff : u.recOffset = s.recOffset := hreg .recOffset rfl
    have hrec : u.region (recRegion s) = s.region (recRegion s) := region_congr fun a h1 h2 => hbyte a (.inr ⟨h1, h2⟩)
    rw [unitResult, unitResult, hsrc, recRegion_congr hreg rfl, hlen, hoff, hrec]
    refine congrArg outputOnly (onePage_congr fun hpage => ?_)
    rw [region_congr fun a h1 h2 => hbyte a (.inl ⟨h1, h2.trans_eq (congrArg _ hpage)⟩)]
  | patch =>
    have hrec : u.region (recRegion s) = s.region (recRegion s) := region_congr fun a h1 h2 => hbyte a (.inr ⟨h1, h2⟩)
    have hoff : u.recOffset = s.recOffset := hreg .recOffset rfl
    obtain ⟨hid, hver⟩ := slotSel_congr hreg rfl
    rw [unitResult, unitResult, hsrc, recRegion_congr hreg rfl, hbytes fun _ h1 h2 => .inl ⟨h1, h2⟩, hrec, hid, hver, hoff]

include hplatform

/-- R23, R48, R49: two machines that agree on what the command reads take the same end, and a success with an output has the
same DST_ADDR. -/
theorem exec_same_end :
    (∃ e, exec i s = .next (errorEnd s e) ∧ exec i u = .next (errorEnd u e)) ∨
      ∃ res, exec i s = .next (successEnd s res) ∧ exec i u = .next (successEnd u res) ∧
        ∀ bs, res.out = some bs → u.dst = s.dst := by
  have hregions := inputRegions_congr hreg
  have hunit := unitResult_congr hreg hbyte
  have hinside : inputsInside u (inputRegions s i) = inputsInside s (inputRegions s i) := by
    rw [inputsInside, inputsInside, hplatform]
  rw [exec_eq i u, exec_eq i s, hregions, hunit, hinside]
  split
  case isFalse => exact .inl ⟨_, rfl, rfl⟩
  cases hres : unitResult s i with
  | error e => exact .inl ⟨e, rfl, rfl⟩
  | ok res =>
    cases hout : res.out with
    | none => exact .inr ⟨res, by simp only [finish, hout], by simp only [finish, hout], by simp [hout]⟩
    | some bs =>
      have hstores : readsRegister i .dstAddr = true := by
        cases i
        case checksum => rw [unitResult_out_none (.inl rfl) hres] at hout; cases hout
        case locateSlot => rw [unitResult_out_none (.inr rfl) hres] at hout; cases hout
        all_goals rfl
      have hdst : u.dstAddr = s.dstAddr := hreg .dstAddr hstores
      have hallowed : outputAllowed u (inputRegions s i) bs.length = outputAllowed s (inputRegions s i) bs.length := by
        rw [outputAllowed, outputAllowed, dstRegion, dstRegion, hplatform, hdst]
      by_cases hok : outputAllowed s (inputRegions s i) bs.length = true
      · exact .inr ⟨res, by simp only [finish, hout, hok, if_true], by simp only [finish, hout, hallowed, hok, if_true],
          fun _ _ => congrArg BitVec.toNat hdst⟩
      · exact .inl ⟨.regionError, by simp only [finish, hout, if_neg hok], by
          simp only [finish, hout, hallowed, if_neg hok]⟩

end

/-- Settles O47: the same end of two states that agree on STATUS and the results sets them alike, and the same output is
written. -/
theorem commandsDependOnlyOnInputs : Obligations.CommandsDependOnlyOnInputs := by
  intro i s u hplatform hreg hbyte hstatus hlen hpage hsum
  rcases exec_same_end hplatform hreg hbyte with ⟨e, hs, hu⟩ | ⟨res, hs, hu, hdst⟩
  · exact ⟨_, _, hs, hu, by simp [hstatus], rfl, hlen, hpage, hsum, nofun⟩
  · refine ⟨_, _, hs, hu, by simp [hstatus], rfl, rfl, by simp [hpage], by simp [hsum], fun _ k hk => ?_⟩
    have hk : k < (res.out.getD []).length := lt_of_lt_of_le hk (Nat.mod_le _ _)
    exact ((successEnd_wroteExactly u res).inside hk).trans ((successEnd_wroteExactly s res).inside hk).symm

end Sys2Proof.Machine
end

section
/-! PROOF. The UF2 codec: UF2_DECODE and UF2_ENCODE on the SRC region (R140 to R147) and the length of what decode answers
(R329). -/

namespace Sys2Proof.Machine

/-! The region checks of a command. -/

/-- R64, R283: a SRC region outside BUF ends every command in error 11. -/
theorem exec_of_src_outside {s : State} (i : Instr) (hout : ¬ s.InBuf s.src s.srcN) :
    exec i s = .next (s.failedWith 11) :=
  exec_inputs_outside (Bool.eq_false_iff.2 fun hin =>
    hout ((inputsInside_iff _ _).1 hin _ (srcRegion_mem_inputRegions s i)))

/-! Pieces of different lengths, one after another. -/

theorem length_flatMap_range (f : Nat → List Byte) :
    ∀ n, ((List.range n).flatMap f).length = sumBelow (fun i => (f i).length) n
  | 0 => rfl
  | n + 1 => by
    rw [List.range_succ, List.flatMap_append, List.length_append, length_flatMap_range f n, sumBelow]
    simp

/-- Byte `k` of piece `j` stands after the pieces before `j`. -/
theorem flatMap_range_getD (f : Nat → List Byte) {j k : Nat} (hk : k < (f j).length) :
    ∀ n, j < n → ((List.range n).flatMap f).getD (sumBelow (fun i => (f i).length) j + k) 0 = (f j).getD k 0
  | n + 1, hj => by
    have hlen := length_flatMap_range f n
    rw [List.range_succ, List.flatMap_append]
    rcases Nat.lt_succ_iff_lt_or_eq.1 hj with hlt | rfl
    · have hsum := sumBelow_mono (fun i => (f i).length) (show j + 1 ≤ n from hlt)
      rw [sumBelow] at hsum
      rw [List.getD_append _ _ _ _ (by omega), flatMap_range_getD f hk n hlt]
    · rw [List.getD_append_right _ _ _ _ (by omega), hlen, Nat.add_sub_cancel_left, List.flatMap_singleton]

/-! The loop of uf2_decode. -/

/-- Block `j` of an image passes both checks of decode (R140). -/
abbrev GoodBlockOf (img : List Byte) (j : Nat) : Prop := Follows img j ∧ le32 img (512 * j + 16) ≤ 476

/-- The payload of block `j` of an image (R95, R97). -/
def blockPayload (img : List Byte) (j : Nat) : List Byte := slice img (512 * j + 32) (le32 img (512 * j + 16))

/-- One round of the loop on a good block. -/
theorem uf2Blocks_succ_of_good {img : List Byte} {j : Nat} (hgood : GoodBlockOf img j) (n : Nat) :
    uf2Blocks (dueAt img j) (n + 1) (img.drop (512 * j)) =
      (uf2Blocks (dueAt img (j + 1)) n (img.drop (512 * (j + 1)))).map (blockPayload img j ++ ·) := by
  obtain ⟨hfollows, hsize⟩ := hgood
  rw [uf2Blocks_succ, if_neg (not_not_intro hfollows), if_neg (Nat.not_lt.2 hsize), slice_drop, blockPayload]
  cases uf2Blocks (dueAt img (j + 1)) n (img.drop (512 * (j + 1))) <;> rfl

/-- R140: where every block is good, decode answers the payloads in file order. -/
theorem uf2Blocks_of_good {img : List Byte} {n : Nat} (hgood : ∀ j < n, GoodBlockOf img j) :
    ∀ m j, j + m = n →
      uf2Blocks (dueAt img j) m (img.drop (512 * j)) = .ok ((List.range' j m).flatMap (blockPayload img))
  | 0, _, _ => by rw [uf2Blocks]; rfl
  | m + 1, j, hjm => by
    rw [uf2Blocks_succ_of_good (hgood j (by omega)), uf2Blocks_of_good hgood m (j + 1) (by omega), List.range'_succ]
    rfl

theorem uf2Decode_of_good {img : List Byte} {n : Nat} (himg : img.length = 512 * n)
    (hgood : ∀ j < n, GoodBlockOf img j) : uf2Decode img = .ok ((List.range n).flatMap (blockPayload img)) := by
  rw [uf2Decode_eq himg, uf2Blocks_of_good hgood n 0 (Nat.zero_add n), List.range_eq_range']

/-- R140: the error of the first block that is not good is the loop's, from whichever good block before it one starts. -/
theorem uf2Blocks_error_of_block {img : List Byte} {i : Nat} {e : CmdError} (hgood : ∀ k < i, GoodBlockOf img k)
    (herr : ∀ m, uf2Blocks (dueAt img i) (m + 1) (img.drop (512 * i)) = .error e) :
    ∀ m j, j ≤ i → i < j + m → uf2Blocks (dueAt img j) m (img.drop (512 * j)) = .error e
  | 0, _, hji, hi => by omega
  | m + 1, j, hji, hi => by
    rcases Nat.lt_or_eq_of_le hji with hlt | rfl
    · rw [uf2Blocks_succ_of_good (hgood j hlt), uf2Blocks_error_of_block hgood herr m (j + 1) hlt (by omega)]
      rfl
    · exact herr m

section
variable {img : List Byte} {n i : Nat} (himg : img.length = 512 * n) (hi : i < n)
  (hgood : ∀ k < i, GoodBlockOf img k)
include himg hi hgood

theorem uf2Decode_nonContiguous (hbroken : ¬ Follows img i) : uf2Decode img = .error .nonContiguous := by
  rw [uf2Decode_eq himg]
  refine uf2Blocks_error_of_block hgood (fun m => ?_) n 0 (Nat.zero_le i) (by omega)
  rw [uf2Blocks_succ, if_pos hbroken]

theorem uf2Decode_payloadSizeRange (hfollows : Follows img i) (hlarge : 476 < le32 img (512 * i + 16)) :
    uf2Decode img = .error .payloadSizeRange := by
  rw [uf2Decode_eq himg]
  refine uf2Blocks_error_of_block hgood (fun m => ?_) n 0 (Nat.zero_le i) (by omega)
  rw [uf2Blocks_succ, if_neg (not_not_intro hfollows), if_pos hlarge]

end

/-- D17: decode takes whole blocks only. -/
theorem uf2Decode_badUf2Length {img : List Byte} (hlen : img.length % 512 ≠ 0) :
    uf2Decode img = .error .badUf2Length := by
  rw [uf2Decode, if_pos hlen]

/-! The SRC region as blocks (R95). -/

section
variable {s : State} {j : Nat} (hj : j < s.srcN / 512)
include hj

theorem le32_srcRegion_target : le32 (s.region (srcRegion s)) (512 * j + 12) = s.blockTgt j := by
  have hfits : 512 * j + 12 + 4 ≤ s.srcN := by omega
  exact (le32_bytes s s.src s.srcN _ hfits).trans (by rw [State.blockTgt, ← Nat.add_assoc])

theorem le32_srcRegion_size : le32 (s.region (srcRegion s)) (512 * j + 16) = s.blockSz j := by
  have hfits : 512 * j + 16 + 4 ≤ s.srcN := by omega
  exact (le32_bytes s s.src s.srcN _ hfits).trans (by rw [State.blockSz, ← Nat.add_assoc])

theorem follows_srcRegion_iff : Follows (s.region (srcRegion s)) j ↔ s.Contiguous j := by
  have hprev : j - 1 < s.srcN / 512 := by omega
  rw [Follows, le32_srcRegion_target hj, le32_srcRegion_target hprev, le32_srcRegion_size hprev]

theorem goodBlockOf_srcRegion_iff : GoodBlockOf (s.region (srcRegion s)) j ↔ s.GoodBlock j := by
  rw [GoodBlockOf, follows_srcRegion_iff hj, le32_srcRegion_size hj]

/-- R140: the payload of a good block has its size, which leaves room for the end magic (D16). -/
theorem length_blockPayload_srcRegion (hsize : s.blockSz j ≤ 476) :
    (blockPayload (s.region (srcRegion s)) j).length = s.blockSz j := by
  have hlen : (s.region (srcRegion s)).length = s.srcN := length_region s _
  rw [blockPayload, length_slice, le32_srcRegion_size hj, hlen]
  omega

theorem blockPayload_srcRegion_getD {k : Nat} (hsize : s.blockSz j ≤ 476) (hk : k < s.blockSz j) :
    (blockPayload (s.region (srcRegion s)) j).getD k 0 = s.byteAt (s.src + 512 * j + 32 + k) := by
  have hfits : 512 * j + 32 + k < s.srcN := by omega
  rw [blockPayload, le32_srcRegion_size hj, slice_getD _ _ _ _ hk]
  exact (bytes_getD s s.src s.srcN _ hfits).trans (by simp only [Nat.add_assoc])

end

/-- R143: the output of decode where every block of the SRC region is good. -/
def decodedSrc (s : State) : List Byte := (List.range (s.srcN / 512)).flatMap (blockPayload (s.region (srcRegion s)))

section
variable {s : State} (hgood : ∀ j < s.srcN / 512, s.GoodBlock j)
include hgood

theorem sumBelow_length_blockPayload {n : Nat} (hn : n ≤ s.srcN / 512) :
    sumBelow (fun j => (blockPayload (s.region (srcRegion s)) j).length) n = s.blockAt n :=
  sumBelow_congr n fun j hj => by
    obtain ⟨-, hsize⟩ := hgood j (by omega)
    exact length_blockPayload_srcRegion (by omega) hsize

theorem length_decodedSrc : (decodedSrc s).length = s.blockAt (s.srcN / 512) :=
  (length_flatMap_range _ _).trans (sumBelow_length_blockPayload hgood le_rfl)

theorem decodedSrc_getD {j k : Nat} (hj : j < s.srcN / 512) (hk : k < s.blockSz j) :
    (decodedSrc s).getD (s.blockAt j + k) 0 = s.byteAt (s.src + 512 * j + 32 + k) := by
  obtain ⟨-, hsize⟩ := hgood j hj
  rw [← sumBelow_length_blockPayload hgood hj.le, decodedSrc,
    flatMap_range_getD _ (by rwa [length_blockPayload_srcRegion hj hsize]) _ hj, blockPayload_srcRegion_getD hj hsize hk]

/-- The bytes of block `j`'s payload lie inside the output. -/
theorem blockAt_add_lt {j k : Nat} (hj : j < s.srcN / 512) (hk : k < s.blockSz j) :
    s.blockAt j + k < (decodedSrc s).length := by
  have hsum : s.blockAt (j + 1) ≤ s.blockAt (s.srcN / 512) := sumBelow_mono _ hj
  rw [State.blockAt, sumBelow] at hsum
  rw [length_decodedSrc hgood]
  exact lt_of_lt_of_le (Nat.add_lt_add_left hk _) hsum

theorem unitResult_uf2Decode_of_good (hwhole : s.srcN % 512 = 0) :
    unitResult s .uf2Decode = .ok { out := some (decodedSrc s) } := by
  have himg : (s.region (srcRegion s)).length = 512 * (s.srcN / 512) := by
    rw [length_region]
    exact (Nat.mul_div_cancel' (Nat.dvd_of_mod_eq_zero hwhole)).symm
  rw [unitResult, uf2Decode_of_good himg fun j hj => (goodBlockOf_srcRegion_iff hj).2 (hgood j hj)]
  rfl

end

/-- Settles O23: the output is the payloads in file order, each after the sizes of those before it. -/
theorem uf2DecodeCompletes : Obligations.Uf2DecodeCompletes := by
  intro s ⟨hin, hwhole, hgood, hout⟩
  have hlen := length_decodedSrc hgood
  obtain ⟨t, hexec, hstate, hwrote⟩ := exec_output_completes (i := .uf2Decode) ((srcInside_iff s).2 hin)
    (unitResult_uf2Decode_of_good hgood hwhole) ((outputClearOfSrc_iff s _).2 (by rwa [hlen]))
  rw [hlen] at hstate
  refine ⟨t, hexec, hstate, fun j hj k hk => ?_, fun a ha => hwrote.outside (by rwa [hlen])⟩
  rw [Nat.add_assoc, hwrote.inside (blockAt_add_lt hgood hj hk), decodedSrc_getD hgood hj hk]

/-- An error of uf2_decode is the error UF2_DECODE ends in, once the input region is inside BUF. -/
theorem exec_uf2Decode_error {s : State} {e : CmdError} (hin : s.InBuf s.src s.srcN)
    (herr : uf2Decode (s.region (srcRegion s)) = .error e) : exec .uf2Decode s = .next (s.failedWith e.code) := by
  have hunit : unitResult s .uf2Decode = .error e := by rw [unitResult, herr, outputOnly]
  exact exec_unit_error ((srcInside_iff s).2 hin) hunit

/-- Settles O24: the region, the length, the first block that is not good, the output region. -/
theorem uf2DecodeErrors : Obligations.Uf2DecodeErrors := by
  intro s
  have hlen : (s.region (srcRegion s)).length = s.srcN := length_region s _
  refine ⟨exec_of_src_outside _, fun hin hbad => ?_, fun hin hwhole => ⟨fun j hj hbefore => ?_, fun hgood hout => ?_⟩⟩
  · exact exec_uf2Decode_error hin (uf2Decode_badUf2Length (by rwa [hlen]))
  · have himg : (s.region (srcRegion s)).length = 512 * (s.srcN / 512) := by omega
    have hgood : ∀ k < j, GoodBlockOf (s.region (srcRegion s)) k := fun k hk =>
      (goodBlockOf_srcRegion_iff (by omega)).2 (hbefore k hk)
    refine ⟨fun hbroken => ?_, fun hfollows hlarge => ?_⟩
    · exact exec_uf2Decode_error hin
        (uf2Decode_nonContiguous himg hj hgood (mt (follows_srcRegion_iff hj).1 hbroken))
    · exact exec_uf2Decode_error hin (uf2Decode_payloadSizeRange himg hj hgood ((follows_srcRegion_iff hj).2 hfollows)
        (by rwa [le32_srcRegion_size hj]))
  · refine exec_output_refused ((srcInside_iff s).2 hin) (unitResult_uf2Decode_of_good hgood hwhole) rfl
      (Bool.eq_false_iff.2 fun hallowed => hout ?_)
    rw [length_decodedSrc hgood] at hallowed
    exact (outputClearOfSrc_iff s _).1 hallowed

/-! The length of what decode answers. -/

/-- R329, D16: a block gives at most 476 bytes. -/
theorem length_uf2Blocks_le {due : Option Nat} {n : Nat} {img out : List Byte} (h : uf2Blocks due n img = .ok out) :
    out.length ≤ 476 * n := by
  induction n generalizing due img out with
  | zero => cases h; exact Nat.zero_le _
  | succ n ih =>
    rw [uf2Blocks] at h
    split at h
    · cases h
    split at h
    · cases h
    split at h
    · rename_i hsize _ rest hrest
      cases h
      have hfirst : (slice img 32 (blockSize img)).length ≤ 476 := by
        rw [length_slice]
        exact (Nat.min_le_left _ _).trans (Nat.not_lt.1 hsize)
      have htail := ih hrest
      simp only [List.length_append, Config.uf2PayloadOffset]
      omega
    · cases h

/-- Settles O29: at most 476 of each 512 bytes are payload, and an encoded image decodes to its payload (O27). -/
theorem decodeOutputBound : Obligations.DecodeOutputBound := by
  refine ⟨fun img out h => ?_, fun p img out base fam hencode hdecode => ?_⟩
  · by_cases hwhole : img.length % 512 = 0
    · have himg : img.length = 512 * (img.length / 512) := by omega
      rw [uf2Decode_eq himg] at h
      have hout := length_uf2Blocks_le h
      omega
    · rw [uf2Decode_badUf2Length hwhole] at h
      cases h
  · have hback := (carriesChunks_of_uf2Encode hencode).uf2Decode_eq_ok fun i _ => by omega
    cases hback.symm.trans hdecode
    exact (length_uf2Encode hencode).symm

/-! UF2_ENCODE. -/

/-- A field inside piece `i` of a sequence of pieces of one length. -/
theorem le32_pieces {f : Nat → List Byte} {w n i o : Nat} (hlen : ∀ i < n, (f i).length = w) (hi : i < n)
    (ho : o + 4 ≤ w) : le32 ((List.range n).flatMap f) (w * i + o) = le32 (f i) o := by
  have hall := length_pieces n hlen
  have hbyte := fun k hk => pieces_getD n hlen i hi k hk
  have hfits : w * i + w ≤ w * n := by
    rw [← Nat.mul_succ]
    exact Nat.mul_le_mul_left w hi
  rw [le32_eq _ _ (by omega), le32_eq _ _ (by rw [hlen i hi]; exact ho)]
  simp only [Nat.add_assoc]
  rw [hbyte _ (by omega), hbyte _ (by omega), hbyte _ (by omega), hbyte _ (by omega)]

/-- R95, R144: the nine words of a block that uf2_encode writes. -/
theorem uf2Block_fields {base fam : Word} {n i : Nat} {chunk : List Byte} (hchunk : chunk.length = 256)
    (htarget : base.toNat + 256 * i < 2 ^ 32) (hi : i < 2 ^ 32) (hn : n < 2 ^ 32) :
    le32 (uf2Block base fam n i chunk) 0 = 0x0A324655 ∧ le32 (uf2Block base fam n i chunk) 4 = 0x9E5D5157 ∧
      le32 (uf2Block base fam n i chunk) 8 = 0 ∧ le32 (uf2Block base fam n i chunk) 12 = base.toNat + 256 * i ∧
      le32 (uf2Block base fam n i chunk) 16 = 256 ∧ le32 (uf2Block base fam n i chunk) 20 = i ∧
      le32 (uf2Block base fam n i chunk) 24 = n ∧ le32 (uf2Block base fam n i chunk) 28 = fam.toNat ∧
      le32 (uf2Block base fam n i chunk) 508 = 0x0AB16F30 := by
  have hlen := length_uf2Block base fam n i hchunk
  have hword := fun {k} => uf2Block_words base fam n i hchunk (k := k)
  refine ⟨le32_of_put32 (by omega) (by decide) fun k hk => ?_, le32_of_put32 (by omega) (by decide) fun k hk => ?_,
    le32_of_put32 (by omega) (by decide) fun k hk => ?_, le32_of_put32 (by omega) htarget fun k hk => ?_,
    le32_of_put32 (by omega) (by decide) fun k hk => ?_, le32_of_put32 (by omega) hi fun k hk => ?_,
    le32_of_put32 (by omega) hn fun k hk => ?_, le32_of_put32 (by omega) fam.isLt fun k hk => ?_,
    le32_of_put32 (by omega) (by decide) fun k hk => ?_⟩ <;>
    obtain ⟨h0, h4, h8, h12, h16, h20, h24, h28, h508⟩ := hword hk
  · rwa [Nat.zero_add]
  all_goals assumption

/-- Block `i` of the image that UF2_ENCODE makes of the SRC region (R144). -/
def encodedBlock (s : State) (i : Nat) : List Byte :=
  uf2Block s.baseAddr s.familyId (s.srcN / 256) i (slice (s.region (srcRegion s)) (256 * i) 256)

/-- The image that UF2_ENCODE makes of the SRC region. -/
def encodedSrc (s : State) : List Byte := (List.range (s.srcN / 256)).flatMap (encodedBlock s)

section
variable {s : State} {i : Nat} (hi : i < s.srcN / 256)
include hi

theorem chunk_srcRegion : slice (s.region (srcRegion s)) (256 * i) 256 = s.bytes (s.src + 256 * i) 256 := by
  have hfits : 256 * i + 256 ≤ s.srcN := by omega
  exact slice_bytes s s.src s.srcN _ _ hfits

theorem length_encodedBlock : (encodedBlock s i).length = 512 := by
  rw [encodedBlock, chunk_srcRegion hi]
  exact length_uf2Block _ _ _ _ (length_bytes s _ _)

end

theorem length_encodedSrc (s : State) : (encodedSrc s).length = 512 * (s.srcN / 256) :=
  length_pieces _ fun _ hi => length_encodedBlock hi

/-- R144: UF2_ENCODE of a payload it accepts. -/
theorem unitResult_uf2Encode {s : State} (hwhole : s.srcN % 256 = 0)
    (hfits : s.srcN = 0 ∨ s.baseAddr.toNat + 256 * (s.srcN / 256 - 1) ≤ 0xFFFFFFFF) :
    unitResult s .uf2Encode = .ok { out := some (encodedSrc s) } := by
  have hlen : (s.region (srcRegion s)).length = s.srcN := length_region s _
  rw [unitResult, uf2Encode_ok s.familyId (by rwa [hlen]) (by rwa [hlen]), hlen]
  rfl

/-- Settles O25: the output is the blocks one after another, each word and byte of a block by its lemma. -/
theorem uf2EncodeCompletes : Obligations.Uf2EncodeCompletes := by
  intro s ⟨hin, hwhole, hfits, hout⟩
  have hlen : (encodedSrc s).length = 2 * s.srcN := by
    rw [length_encodedSrc]
    omega
  obtain ⟨t, hexec, hstate, hwrote⟩ := exec_output_completes (i := .uf2Encode) ((srcInside_iff s).2 hin)
    (unitResult_uf2Encode hwhole hfits) ((outputClearOfSrc_iff s _).2 (by rwa [hlen]))
  rw [hlen] at hstate
  refine ⟨t, hexec, hstate, fun i hi => ?_, fun a ha => hwrote.outside (by rwa [hlen])⟩
  have hfield : ∀ o, o + 4 ≤ 512 → t.le32At (s.dst + 512 * i + o) = le32 (encodedBlock s i) o := fun o ho => by
    rw [Nat.add_assoc, hwrote.le32At (by omega)]
    exact le32_pieces (fun _ hi => length_encodedBlock hi) hi ho
  have hbyte : ∀ k < 512, t.byteAt (s.dst + 512 * i + k) = (encodedBlock s i).getD k 0 := fun k hk => by
    rw [Nat.add_assoc, hwrote.inside (by omega)]
    exact pieces_getD _ (fun _ hi => length_encodedBlock hi) i hi k hk
  have hchunk : (slice (s.region (srcRegion s)) (256 * i) 256).length = 256 := by rw [chunk_srcRegion hi, length_bytes]
  have hsrcN := s.srcLen.isLt
  obtain ⟨h0, h4, h8, h12, h16, h20, h24, h28, h508⟩ := uf2Block_fields (base := s.baseAddr) (fam := s.familyId)
    (n := s.srcN / 256) (i := i) hchunk (by omega) (by omega) (by omega)
  obtain ⟨hpayload, hzeros⟩ := uf2Block_payload s.baseAddr s.familyId (s.srcN / 256) i hchunk
  refine ⟨(hfield 0 (by decide)).trans h0, (hfield 4 (by decide)).trans h4, (hfield 8 (by decide)).trans h8,
    (hfield 12 (by decide)).trans h12, (hfield 16 (by decide)).trans h16, (hfield 20 (by decide)).trans h20,
    (hfield 24 (by decide)).trans h24, (hfield 28 (by decide)).trans h28, fun k hk => ?_, fun k hk => ?_,
    (hfield 508 (by decide)).trans h508⟩
  · rw [Nat.add_assoc _ 32 k, hbyte (32 + k) (by omega), encodedBlock, hpayload k hk, chunk_srcRegion hi,
      bytes_getD _ _ _ _ hk]
  · rw [Nat.add_assoc _ 288 k, hbyte (288 + k) (by omega), encodedBlock, hzeros k hk]

end Sys2Proof.Machine
end

section
/-! PROOF. The slot resolver on the SRC region: which page LOCATE_SLOT answers (R200 to R204). -/

namespace Sys2Proof.Machine

/-- R201, R202: what the scan of the SRC region picks is the page that resolves. -/
theorem picked_srcRegion_iff (s : State) (p : Nat) :
    Picked (s.region (srcRegion s)) (slotId s) (slotVersion s) (s.srcN / 2048) p ↔ s.Resolves p := by
  unfold Picked State.Resolves
  refine and_congr_right fun hp => ?_
  rw [candidate_srcRegion_iff hp, footerSequence_srcRegion hp]
  refine and_congr_right fun _ => and_congr_right fun _ =>
    and_congr (forall₂_congr fun q hq => ?_) (forall₂_congr fun q hq => ?_)
  · rw [candidate_srcRegion_iff hq, footerSequence_srcRegion hq]
  · have hq : q < s.srcN / 2048 := hq.trans hp
    rw [candidate_srcRegion_iff hq, footerSequence_srcRegion hq]

/-- R200 to R203 on the SRC region: no page resolves, or the one that does is answered. -/
theorem locate_srcRegion_cases {s : State} (hwhole : s.srcN % 2048 = 0) :
    (locate (s.region (srcRegion s)) (slotId s) (slotVersion s) = .error .slotNotResolved ∧ s.NoneResolves) ∨
      ∃ p, locate (s.region (srcRegion s)) (slotId s) (slotVersion s) = .ok (2048 * p) ∧ s.Resolves p := by
  have hlen : (s.region (srcRegion s)).length = s.srcN := length_region s _
  rcases locate_cases (slotId s) (slotVersion s) (hlen ▸ hwhole) with ⟨herr, hnone⟩ | ⟨p, hok, hpicked⟩
  · refine .inl ⟨herr, fun q hq hmatches => ?_⟩
    rw [← footerSequence_srcRegion hq]
    exact hnone q (by rwa [hlen]) ((candidate_srcRegion_iff hq).2 hmatches)
  · rw [hlen, picked_srcRegion_iff] at hpicked
    exact .inr ⟨p, hok, hpicked⟩

/-- R202: only one page resolves. -/
theorem resolves_unique {s : State} {p q : Nat} (hp : s.Resolves p) (hq : s.Resolves q) : p = q :=
  picked_unique ((picked_srcRegion_iff s p).2 hp) ((picked_srcRegion_iff s q).2 hq)

theorem locate_of_resolves {s : State} {p : Nat} (hwhole : s.srcN % 2048 = 0) (hp : s.Resolves p) :
    locate (s.region (srcRegion s)) (slotId s) (slotVersion s) = .ok (2048 * p) := by
  rcases locate_srcRegion_cases hwhole with ⟨-, hnone⟩ | ⟨q, hok, hq⟩
  · obtain ⟨hin, hmatches, hpos, -⟩ := hp
    rw [hnone p hin hmatches] at hpos
    exact absurd hpos (Nat.lt_irrefl 0)
  · rw [hok, resolves_unique hp hq]

/-- R204: the success end of a command that answers a page only. -/
theorem successEnd_page_only (s : State) (o : Nat) :
    successEnd s { page := some o } = s.succeededWith s.buf 0 (BitVec.ofNat 32 o) s.checksum true := rfl

/-- Settles O33: LOCATE_SLOT has no output region, so its region check is of SRC alone. -/
theorem locateSlotResolves : Obligations.LocateSlotResolves := by
  intro s p ⟨hin, hwhole, hp⟩
  have hunit : unitResult s .locateSlot = .ok { page := some (2048 * p) } := by
    rw [unitResult, locate_of_resolves hwhole hp]
  rw [← successEnd_page_only]
  exact exec_unit_ok ((srcInside_iff s).2 hin) hunit nofun

/-- Settles O35: the two answers of locate, each with its command's end (O33, O34). -/
theorem locateDecided : Obligations.LocateDecided := by
  intro s hin hwhole
  rcases locate_srcRegion_cases hwhole with ⟨-, hnone⟩ | ⟨p, -, hp⟩
  · obtain ⟨-, -, hnotResolved⟩ := locateSlotErrors s
    exact .inr ⟨hnone, hnotResolved hin hwhole hnone⟩
  · exact .inl ⟨p, hp, locateSlotResolves s p ⟨hin, hwhole, hp⟩⟩

end Sys2Proof.Machine
end

section
/-! PROOF. SI_UNPACK and SI_PACK of the page in the SRC region (R230 to R233). -/

namespace Sys2Proof.Machine

/-! What the two commands share. -/

theorem onePage_of_page {len : Nat} (hlen : len = 2048) (r : Except CmdError (List Byte)) : onePage len r = r :=
  if_pos hlen

theorem onePage_of_not_page {len : Nat} (hlen : len ≠ 2048) (r : Except CmdError (List Byte)) :
    onePage len r = .error .badPageLength :=
  if_neg hlen

theorem siUnpack_recordOutOfBounds {page : List Byte} {off : Nat} (hoff : 968 < off) :
    siUnpack page off = .error .recordOutOfBounds :=
  if_pos hoff

theorem siPack_recordOutOfBounds {page uri : List Byte} {off : Nat} (hoff : 968 < off) :
    siPack page uri off = .error .recordOutOfBounds :=
  if_pos hoff

theorem srcRegion_eq_page {s : State} (hpage : s.srcN = 2048) : s.region (srcRegion s) = s.bytes s.src 2048 :=
  congrArg (s.bytes s.src) hpage

/-! SI_UNPACK. -/

/-- R110: the sign extension of a byte, as the number of its 32-bit word. -/
theorem sext8To32_eq_signExtend (b : Byte) : sext8To32 b.toNat = (b.signExtend 32).toNat := by
  revert b
  decide

/-- The record image that SI_UNPACK makes of the SRC region (R230), where the record stands at `s.src + s.off`. -/
def unpackedSrc (s : State) : List Byte :=
  s.bytes (s.src + s.off) 1060 ++ noteWords (s.bytes (s.src + s.off) 1072) ++
    put32 (byteOf (s.bytes (s.src + s.off) 1072) 1068) ++ put32 (byteOf (s.bytes (s.src + s.off) 1072) 1069)

theorem length_unpackedSrc (s : State) : (unpackedSrc s).length = 1100 := by
  simp [unpackedSrc, length_noteWords]

theorem unitResult_siUnpack {s : State} (hpage : s.srcN = 2048) (hoff : s.off ≤ 968) :
    unitResult s .siUnpack = .ok { out := some (unpackedSrc s) } := by
  have hrec : s.off + 1072 ≤ (s.bytes s.src 2048).length := by rw [length_bytes]; omega
  rw [unitResult, onePage_of_page hpage, srcRegion_eq_page hpage, siUnpack_ok hrec hoff, slice_bytes _ _ _ _ _ (by omega),
    slice_bytes _ _ _ _ _ (by omega)]
  rfl

/-- The four parts of the record image, byte by byte (R110). -/
theorem unpackedSrc_getD (s : State) (k : Nat) :
    (unpackedSrc s).getD k 0 =
      if k < 1060 then (s.bytes (s.src + s.off) 1060).getD k 0
      else if k < 1092 then (noteWords (s.bytes (s.src + s.off) 1072)).getD (k - 1060) 0
      else if k < 1096 then (put32 (byteOf (s.bytes (s.src + s.off) 1072) 1068)).getD (k - 1092) 0
      else (put32 (byteOf (s.bytes (s.src + s.off) 1072) 1069)).getD (k - 1096) 0 :=
  uri_getD (length_bytes s _ _) (length_noteWords _) (length_put32 _) k

theorem byteOf_record (s : State) {k : Nat} (hk : k < 1072) :
    byteOf (s.bytes (s.src + s.off) 1072) k = (s.byteAt (s.src + s.off + k)).toNat :=
  congrArg BitVec.toNat (bytes_getD _ _ _ _ hk)

/-- R110: note word `k` of the record image. -/
theorem le32_unpackedSrc_note (s : State) {k : Nat} (hk : k < 8) :
    le32 (unpackedSrc s) (1060 + 4 * k) = ((s.byteAt (s.src + s.off + 1060 + k)).signExtend 32).toNat := by
  refine le32_of_put32 (by rw [length_unpackedSrc]; omega) (BitVec.isLt _) fun j hj => ?_
  rw [unpackedSrc_getD, if_neg (by omega), if_pos (by omega), show 1060 + 4 * k + j - 1060 = 4 * k + j by omega,
    noteWords_getD _ hk hj, noteWord, byteOf_record s (by omega), sext8To32_eq_signExtend,
    Nat.add_assoc (s.src + s.off) 1060 k]

theorem le32_unpackedSrc_pitched (s : State) :
    le32 (unpackedSrc s) 1092 = (s.byteAt (s.src + s.off + 1068)).toNat := by
  refine le32_of_put32 (by rw [length_unpackedSrc]; decide) (lt_trans (BitVec.isLt _) (by decide)) fun j hj => ?_
  rw [unpackedSrc_getD, if_neg (by omega), if_neg (by omega), if_pos (by omega), byteOf_record s (by decide),
    Nat.add_sub_cancel_left]

theorem le32_unpackedSrc_loop (s : State) :
    le32 (unpackedSrc s) 1096 = (s.byteAt (s.src + s.off + 1069)).toNat := by
  refine le32_of_put32 (by rw [length_unpackedSrc]) (lt_trans (BitVec.isLt _) (by decide)) fun j hj => ?_
  rw [unpackedSrc_getD, if_neg (by omega), if_neg (by omega), if_neg (by omega), byteOf_record s (by decide),
    Nat.add_sub_cancel_left]

/-- Settles O36: the output is `unpackedSrc`, and each of its fields has its lemma. -/
theorem siUnpackCompletes : Obligations.SiUnpackCompletes := by
  intro s ⟨hin, hpage, hoff, hout⟩
  have hlen := length_unpackedSrc s
  obtain ⟨t, hexec, hstate, hwrote⟩ := exec_output_completes (i := .siUnpack) ((srcInside_iff s).2 hin)
    (unitResult_siUnpack hpage hoff) ((outputClearOfSrc_iff s _).2 (by rwa [hlen]))
  rw [hlen] at hstate
  refine ⟨t, hexec, hstate, fun k hk => ?_, fun k hk => ?_, ?_, ?_, fun a ha => hwrote.outside (by rwa [hlen])⟩
  · rw [hwrote.inside (by omega), unpackedSrc_getD, if_pos hk, bytes_getD _ _ _ _ hk]
  · rw [Nat.add_assoc, hwrote.le32At (by omega), le32_unpackedSrc_note s hk]
  · rw [hwrote.le32At (by omega), le32_unpackedSrc_pitched]
  · rw [hwrote.le32At (by omega), le32_unpackedSrc_loop]

/-- An answer of SI_UNPACK's rules that is an error is the error the command ends in. -/
theorem exec_siUnpack_error {s : State} {e : CmdError} (hin : s.InBuf s.src s.srcN)
    (herr : onePage s.srcLen.toNat (siUnpack (s.region (srcRegion s)) s.recOffset.toNat) = .error e) :
    exec .siUnpack s = .next (s.failedWith e.code) := by
  have hunit : unitResult s .siUnpack = .error e := by rw [unitResult, herr, outputOnly]
  exact exec_unit_error ((srcInside_iff s).2 hin) hunit

/-- Settles O37: the checks of R231 in its order. -/
theorem siUnpackErrors : Obligations.SiUnpackErrors := by
  refine fun s => ⟨exec_of_src_outside _, fun hin hbad => ?_, fun hin hpage hoff => ?_, fun hin hpage hoff hout => ?_⟩
  · exact exec_siUnpack_error hin (onePage_of_not_page hbad _)
  · exact exec_siUnpack_error hin ((onePage_of_page hpage _).trans (siUnpack_recordOutOfBounds hoff))
  · refine exec_output_refused ((srcInside_iff s).2 hin) (unitResult_siUnpack hpage hoff) rfl
      (Bool.eq_false_iff.2 fun hallowed => hout ?_)
    rw [length_unpackedSrc] at hallowed
    exact (outputClearOfSrc_iff s _).1 hallowed

/-! SI_PACK. -/

/-- R64, R283: a record image outside BUF ends SI_PACK and PATCH in error 11, as a SRC region does. -/
theorem exec_of_srcRec_outside {s : State} {i : Instr} (hi : inputRegions s i = [srcRegion s, recRegion s])
    (hout : ¬ s.InBuf s.src s.srcN ∨ ¬ s.InBuf s.uri 1100) : exec i s = .next (s.failedWith 11) := by
  refine exec_inputs_outside (Bool.eq_false_iff.2 fun hin => ?_)
  rw [hi, srcRecInside_iff] at hin
  tauto

/-- The first 1060 bytes of the record image in BUF (R111). -/
theorem take_recRegion (s : State) : (s.region (recRegion s)).take 1060 = s.bytes s.uri 1060 := by
  have hslice := slice_bytes s s.uri 1100 0 1060 (by decide)
  rwa [slice, List.drop_zero] at hslice

/-- The page that SI_PACK makes of the SRC region and the record image (R232). -/
def packedSrc (s : State) : List Byte := splice (s.bytes s.src 2048) s.off (s.bytes s.uri 1060)

section
variable {s : State} (hoff : s.off ≤ 968)
include hoff

theorem length_packedSrc : (packedSrc s).length = 2048 := by
  rw [packedSrc, length_splice _ _ _ (by simp only [length_bytes]; omega), length_bytes]

theorem packedSrc_getD {k : Nat} (hk : k < 2048) :
    (packedSrc s).getD k 0 =
      if s.off ≤ k ∧ k < s.off + 1060 then s.byteAt (s.uri + (k - s.off)) else s.byteAt (s.src + k) := by
  rw [packedSrc, splice_getD _ _ _ _ (by simp only [length_bytes]; omega), length_bytes]
  split
  · exact bytes_getD _ _ _ _ (by omega)
  · exact bytes_getD _ _ _ _ hk

theorem unitResult_siPack (hpage : s.srcN = 2048) : unitResult s .siPack = .ok { out := some (packedSrc s) } := by
  rw [unitResult, onePage_of_page hpage, srcRegion_eq_page hpage, siPack_ok hoff, take_recRegion]
  rfl

end

/-- Settles O38: the output is `packedSrc`. -/
theorem siPackCompletes : Obligations.SiPackCompletes := by
  intro s ⟨hin, hrec, hpage, hoff, hout⟩
  have hlen := length_packedSrc hoff
  obtain ⟨t, hexec, hstate, hwrote⟩ := exec_output_completes (i := .siPack) ((srcRecInside_iff s).2 ⟨hin, hrec⟩)
    (unitResult_siPack hoff hpage) ((outputClearOfInputs_iff s _).2 (by rwa [hlen]))
  rw [hlen] at hstate
  refine ⟨t, hexec, hstate, fun k hk => ?_, fun a ha => hwrote.outside (by rwa [hlen])⟩
  rw [hwrote.inside (by omega), packedSrc_getD hoff hk]

/-- An answer of SI_PACK's rules that is an error is the error the command ends in. -/
theorem exec_siPack_error {s : State} {e : CmdError} (hin : s.InBuf s.src s.srcN) (hrec : s.InBuf s.uri 1100)
    (herr : onePage s.srcLen.toNat (siPack (s.region (srcRegion s)) (s.region (recRegion s)) s.recOffset.toNat) =
      .error e) :
    exec .siPack s = .next (s.failedWith e.code) := by
  have hunit : unitResult s .siPack = .error e := by rw [unitResult, herr, outputOnly]
  exact exec_unit_error ((srcRecInside_iff s).2 ⟨hin, hrec⟩) hunit

/-- Settles O39: the checks of R233 in its order. -/
theorem siPackErrors : Obligations.SiPackErrors := by
  refine fun s => ⟨exec_of_srcRec_outside rfl, fun hin hrec =>
    ⟨fun hbad => ?_, fun hpage hoff => ?_, fun hpage hoff hout => ?_⟩⟩
  · exact exec_siPack_error hin hrec (onePage_of_not_page hbad _)
  · exact exec_siPack_error hin hrec ((onePage_of_page hpage _).trans (siPack_recordOutOfBounds hoff))
  · refine exec_output_refused ((srcRecInside_iff s).2 ⟨hin, hrec⟩) (unitResult_siPack hoff hpage) rfl
      (Bool.eq_false_iff.2 fun hallowed => hout ?_)
    rw [length_packedSrc hoff] at hallowed
    exact (outputClearOfInputs_iff s _).1 hallowed

end Sys2Proof.Machine
end

section
/-! PROOF. PATCH (R234, R235): the operation as two replacements of bytes in the image, the command, and what neither
depends on (R183, R236). -/

namespace Sys2Proof.Machine

/-! Replacements of bytes one after another (R8). -/

theorem splice_comm {l t u : List Byte} {a b : Nat} (ha : a + t.length ≤ l.length) (hb : b + u.length ≤ l.length)
    (hdisj : a + t.length ≤ b ∨ b + u.length ≤ a) : splice (splice l a t) b u = splice (splice l b u) a t := by
  have hla := length_splice l a t ha
  have hlb := length_splice l b u hb
  apply bytes_ext
  · rw [length_splice _ _ _ (by omega), hla, length_splice _ _ _ (by omega), hlb]
  · intro k _
    rw [splice_getD _ _ _ _ (by omega), splice_getD _ _ _ _ ha, splice_getD _ _ _ _ (by omega), splice_getD _ _ _ _ hb]
    by_cases hk : b ≤ k ∧ k < b + u.length
    · rw [if_pos hk, if_neg (by omega), if_pos hk]
    · rw [if_neg hk, if_neg hk]

/-- Of two replacements of the same bytes the second counts. -/
theorem splice_splice_same {l t u : List Byte} {a : Nat} (ha : a + t.length ≤ l.length) (hlen : u.length = t.length) :
    splice (splice l a t) a u = splice l a u := by
  have hla := length_splice l a t ha
  apply bytes_ext
  · rw [length_splice _ _ _ (by omega), hla, length_splice _ _ _ (by omega)]
  · intro k _
    rw [splice_getD _ _ _ _ (by omega), splice_getD _ _ _ _ ha, splice_getD _ _ _ _ (by omega), hlen]
    split <;> rfl

/-- A replacement inside a slice, read from the whole. -/
theorem slice_splice_inside {l t : List Byte} {o w a : Nat} (hw : o + w ≤ l.length) (ha : a + t.length ≤ w) :
    slice (splice l (o + a) t) o w = splice (slice l o w) a t := by
  have hl := length_splice l (o + a) t (by omega)
  have hs : (slice l o w).length = w := by rw [length_slice]; omega
  apply bytes_ext
  · rw [length_slice, hl, length_splice _ _ _ (by omega), hs]
    omega
  · intro k hk
    have hk : k < w := by rw [length_slice] at hk; omega
    rw [slice_getD _ _ _ _ hk, splice_getD _ _ _ _ (by omega), splice_getD _ _ _ _ (by omega), slice_getD _ _ _ _ hk,
      Nat.add_sub_add_left]
    exact if_congr (by omega) rfl rfl

/-- A slice with bytes replaced, put back where it was. -/
theorem splice_splice_slice {l t : List Byte} {o w a : Nat} (hw : o + w ≤ l.length) (ha : a + t.length ≤ w) :
    splice l o (splice (slice l o w) a t) = splice l (o + a) t := by
  have hs : (slice l o w).length = w := by rw [length_slice]; omega
  have hX : (splice (slice l o w) a t).length = w := by rw [length_splice _ _ _ (by omega), hs]
  apply bytes_ext
  · rw [length_splice _ _ _ (by omega), length_splice _ _ _ (by omega)]
  · intro k _
    rw [splice_getD l o _ k (by omega), splice_getD l (o + a) t k (by omega), hX]
    by_cases hk : o ≤ k ∧ k < o + w
    · rw [if_pos hk, splice_getD _ _ _ _ (by omega), slice_getD _ _ _ _ (by omega), Nat.sub_sub,
        Nat.add_sub_cancel' hk.1]
      exact if_congr (by omega) rfl rfl
    · rw [if_neg hk, if_neg (by omega)]

/-! patch as two replacements in the image. -/

/-- The image with the record bytes of the page at `o` replaced (R232, R234). -/
def repacked (img uri : List Byte) (off o : Nat) : List Byte := splice img (o + off) (uri.take 1060)

/-- The checksum of the new body of the page at `o` (R182, R234). -/
def repackedSum (img uri : List Byte) (off o : Nat) : Nat := checksum (slice (repacked img uri off o) o 2040)

/-- What patch answers where locate answers `o` (R234). -/
def patched (img uri : List Byte) (off o : Nat) : Patched :=
  { image := splice (repacked img uri off o) (o + 2042) (put16 (repackedSum img uri off o))
    page := o
    sum := repackedSum img uri off o }

section
variable {img uri : List Byte} {off o : Nat} (ho : o + 2048 ≤ img.length) (hoff : off ≤ 968)
include ho hoff

theorem length_repacked : (repacked img uri off o).length = img.length := by
  have htake := List.length_take_le 1060 uri
  exact length_splice _ _ _ (by omega)

theorem length_patched_image : (patched img uri off o).image.length = img.length := by
  have hlen := length_repacked (uri := uri) ho hoff
  rw [patched, length_splice _ _ _ (by rw [length_put16]; omega), hlen]

/-- R234: the new page put into the image is the record put into the image, and then the checksum. -/
theorem splice_new_page (q : List Byte) (hq : q.length = 2) :
    splice img o (splice (splice (slice img o 2048) off (uri.take 1060)) 2042 q) =
      splice (repacked img uri off o) (o + 2042) q := by
  have htake := List.length_take_le 1060 uri
  have hlen := length_repacked (uri := uri) ho hoff
  have hpage := slice_splice_inside (t := uri.take 1060) (a := off) ho (by omega)
  have hpageLen : (slice (repacked img uri off o) o 2048).length = 2048 := by rw [length_slice]; omega
  have hwhole : splice img o (slice (repacked img uri off o) o 2048) = repacked img uri off o := by
    rw [repacked, hpage, splice_splice_slice ho (by omega)]
  calc splice img o (splice (splice (slice img o 2048) off (uri.take 1060)) 2042 q)
    _ = splice img o (splice (slice (repacked img uri off o) o 2048) 2042 q) := by rw [← hpage, ← repacked]
    _ = splice (splice img o (slice (repacked img uri off o) o 2048)) o
          (splice (slice (repacked img uri off o) o 2048) 2042 q) :=
      (splice_splice_same (by omega) (length_splice _ _ _ (by omega))).symm
    _ = splice (repacked img uri off o) (o + 2042) q := by rw [hwhole, splice_splice_slice (by omega) (by omega)]

end

theorem take_slice (l : List Byte) {o n w : Nat} (h : n ≤ w) : (slice l o w).take n = slice l o n := by
  rw [slice, List.take_take, Nat.min_eq_left h, slice]

theorem patch_badImageLength {img uri : List Byte} {sid ver off : Nat} (hlen : img.length % 2048 ≠ 0) :
    patch img sid ver uri off = .error .badImageLength :=
  if_pos hlen

theorem patch_recordOutOfBounds {img uri : List Byte} {sid ver off : Nat} (hlen : img.length % 2048 = 0)
    (hoff : 968 < off) : patch img sid ver uri off = .error .recordOutOfBounds := by
  rw [patch, if_neg (not_not_intro hlen), if_pos hoff]

/-- What locate answers is the offset of a page inside the image. -/
theorem locate_ok_page {img : List Byte} {sid ver o : Nat} (h : locate img sid ver = .ok o) :
    ∃ p, o = 2048 * p ∧ p < img.length / 2048 := by
  obtain ⟨-, p, ho, hp, -⟩ := locate_ok_inv h
  exact ⟨p, ho, hp⟩

/-- R234: after its two checks patch does what `patched` says where locate answers, and fails as locate does. -/
theorem patch_eq {img uri : List Byte} {sid ver off : Nat} (hlen : img.length % 2048 = 0) (hoff : off ≤ 968) :
    patch img sid ver uri off = (locate img sid ver).map (patched img uri off) := by
  rw [patch, if_neg (not_not_intro hlen), if_neg (Nat.not_lt.2 hoff)]
  cases hloc : locate img sid ver with
  | error e => rfl
  | ok o =>
    obtain ⟨p, rfl, hp⟩ := locate_ok_page hloc
    have hpage : 2048 * p + 2048 ≤ img.length := by omega
    have htake := List.length_take_le 1060 uri
    have hbody : (splice (slice img (2048 * p) 2048) off (uri.take 1060)).take 2040 =
        slice (repacked img uri off (2048 * p)) (2048 * p) 2040 := by
      rw [← slice_splice_inside hpage (by omega), take_slice _ (by decide), repacked]
    simp only [siPack_ok hoff, Config.pageBytes, Config.pageBodyBytes, hbody]
    rw [splice_new_page hpage hoff _ (length_put16 _)]
    rfl

/-- Where patch answers, its checks passed, and it answers `patched` of the located page. -/
theorem patch_ok_inv {img uri : List Byte} {sid ver off : Nat} {r : Patched} (h : patch img sid ver uri off = .ok r) :
    img.length % 2048 = 0 ∧ off ≤ 968 ∧
      ∃ p, p < img.length / 2048 ∧ locate img sid ver = .ok (2048 * p) ∧ r = patched img uri off (2048 * p) := by
  by_cases hlen : img.length % 2048 = 0
  case neg => rw [patch_badImageLength hlen] at h; cases h
  by_cases hoff : off ≤ 968
  case neg => rw [patch_recordOutOfBounds hlen (Nat.not_le.1 hoff)] at h; cases h
  have hloc := locate_of_patch_ok h
  obtain ⟨p, hpage, hp⟩ := locate_ok_page hloc
  rw [patch_eq hlen hoff, hloc, hpage] at h
  exact ⟨hlen, hoff, p, hp, hpage ▸ hloc, (Except.ok.inj h).symm⟩

/-! Bytes of a page that locate does not read (R183, R201). -/

/-- The body and the stored checksum of a page are nothing to locate. -/
theorem locate_splice {img t : List Byte} {p a : Nat} (sid ver : Nat) (hp : p < img.length / 2048)
    (ha : a + t.length ≤ 2040 ∨ 2042 ≤ a ∧ a + t.length ≤ 2044) :
    locate (splice img (2048 * p + a) t) sid ver = locate img sid ver := by
  have hfit : 2048 * p + a + t.length ≤ img.length := by omega
  have hlen := length_splice _ _ _ hfit
  refine locate_congr hlen sid ver fun q hq k hlow hhigh hfooter => ?_
  rw [splice_getD _ _ _ _ hfit, if_neg (by omega)]

/-! Patching twice (R235, R236). -/

theorem locate_patched {img uri : List Byte} {off p : Nat} (sid ver : Nat) (hp : p < img.length / 2048)
    (hoff : off ≤ 968) :
    locate (patched img uri off (2048 * p)).image sid ver = locate img sid ver := by
  have htake := List.length_take_le 1060 uri
  have hlen := length_repacked (img := img) (uri := uri) (o := 2048 * p) (by omega) hoff
  rw [patched, locate_splice sid ver (by rwa [hlen]) (.inr (by rw [length_put16]; decide)), repacked,
    locate_splice sid ver hp (.inl (by omega))]

section
variable {img uri : List Byte} {off o : Nat} (ho : o + 2048 ≤ img.length) (hoff : off ≤ 968)
include ho hoff

/-- The record of a patched image is the one that is put into it. -/
theorem repacked_patched :
    repacked (patched img uri off o).image uri off o = (patched img uri off o).image := by
  have htake := List.length_take_le 1060 uri
  have hlen := length_repacked (uri := uri) ho hoff
  have hagain : splice (repacked img uri off o) (o + off) (uri.take 1060) = repacked img uri off o :=
    splice_splice_same (by omega) rfl
  rw [patched, repacked, splice_comm (by rw [length_put16]; omega) (by omega) (.inr (by omega)), hagain]

/-- The stored checksum is no part of the body it is the checksum of (R182). -/
theorem repackedSum_patched : repackedSum (patched img uri off o).image uri off o = repackedSum img uri off o := by
  have hlen := length_repacked (uri := uri) ho hoff
  rw [repackedSum, repacked_patched ho hoff, patched,
    slice_splice_of_disjoint (by rw [length_put16]; omega) (.inl (by omega)), repackedSum]

theorem patched_patched : patched (patched img uri off o).image uri off o = patched img uri off o := by
  have hlen := length_repacked (uri := uri) ho hoff
  have hagain : splice (patched img uri off o).image (o + 2042) (put16 (repackedSum img uri off o)) =
      (patched img uri off o).image :=
    splice_splice_same (by rw [length_put16]; omega) rfl
  rw [patched, repacked_patched ho hoff, repackedSum_patched ho hoff, hagain]
  rfl

end

/-- Settles O43: the same page is located, and both replacements find their bytes in place. -/
theorem patchIdempotent : Obligations.PatchIdempotent := by
  intro img uri sid ver off r _ h
  obtain ⟨hwhole, hoff, p, hp, hloc, rfl⟩ := patch_ok_inv h
  have hpage : 2048 * p + 2048 ≤ img.length := by omega
  have hlen := length_patched_image (uri := uri) hpage hoff
  rw [patch_eq (by rwa [hlen]) hoff, locate_patched sid ver hp hoff, hloc]
  exact congrArg Except.ok (patched_patched hpage hoff)

/-! Two other bytes at a stored checksum (R183). -/

section
variable {img uri : List Byte} {off p q : Nat} (a b : Byte) (hp : p < img.length / 2048) (hq : q < img.length / 2048)
  (hoff : off ≤ 968)
include hp hq hoff

theorem repacked_splice_footer :
    repacked (splice img (2048 * p + 2042) [a, b]) uri off (2048 * q) =
      splice (repacked img uri off (2048 * q)) (2048 * p + 2042) [a, b] := by
  have htake := List.length_take_le 1060 uri
  have htwo : [a, b].length = 2 := rfl
  exact splice_comm (by omega) (by omega) (by omega)

theorem repackedSum_splice_footer :
    repackedSum (splice img (2048 * p + 2042) [a, b]) uri off (2048 * q) = repackedSum img uri off (2048 * q) := by
  have hlen := length_repacked (img := img) (uri := uri) (o := 2048 * q) (by omega) hoff
  have htwo : [a, b].length = 2 := rfl
  rw [repackedSum, repacked_splice_footer a b hp hq hoff, slice_splice_of_disjoint (by omega) (by omega), repackedSum]

/-- R183, R234: patch writes over the two bytes in the page it rewrites, and carries them through in any other. -/
theorem patched_splice_footer :
    patched (splice img (2048 * p + 2042) [a, b]) uri off (2048 * q) =
      if 2048 * q = 2048 * p then patched img uri off (2048 * q)
      else { patched img uri off (2048 * q) with
        image := splice (patched img uri off (2048 * q)).image (2048 * p + 2042) [a, b] } := by
  have hlen := length_repacked (img := img) (uri := uri) (o := 2048 * q) (by omega) hoff
  have htwo : [a, b].length = 2 := rfl
  have hsum := length_put16 (repackedSum img uri off (2048 * q))
  rw [patched, repackedSum_splice_footer a b hp hq hoff, repacked_splice_footer a b hp hq hoff]
  split
  · rename_i hsame
    rw [← hsame, splice_splice_same (by omega) (by omega), patched]
  · rw [splice_comm (by omega) (by omega) (by omega), patched]

end

/-- R183 of si_pack: the two bytes lie behind the record. -/
theorem siPack_splice_footer {img uri : List Byte} (off : Nat) (a b : Byte) (hlen : img.length = 2048) :
    siPack (splice img 2042 [a, b]) uri off = (siPack img uri off).map fun pg => splice pg 2042 [a, b] := by
  rcases Nat.lt_or_ge 968 off with hout | hoff
  · rw [siPack_recordOutOfBounds hout, siPack_recordOutOfBounds hout]
    rfl
  · have htake := List.length_take_le 1060 uri
    have htwo : [a, b].length = 2 := rfl
    rw [siPack_ok hoff, siPack_ok hoff, splice_comm (by omega) (by omega) (by omega)]
    rfl

/-- R183 of si_unpack: the two bytes lie behind the record. -/
theorem siUnpack_splice_footer {img : List Byte} (off : Nat) (a b : Byte) (hlen : img.length = 2048) :
    siUnpack (splice img 2042 [a, b]) off = siUnpack img off := by
  rcases Nat.lt_or_ge 968 off with hout | hoff
  · rw [siUnpack_recordOutOfBounds hout, siUnpack_recordOutOfBounds hout]
  · have htwo : [a, b].length = 2 := rfl
    have hsame := length_splice img 2042 [a, b] (by omega)
    have hslice : ∀ n ≤ 1072, slice (splice img 2042 [a, b]) off n = slice img off n := fun n hn =>
      slice_splice_of_disjoint (by omega) (by omega)
    rw [siUnpack_ok (by omega) hoff, siUnpack_ok (by omega) hoff, hslice 1060 (by decide), hslice 1072 le_rfl]

/-- Settles O44: locate and si_unpack do not read the two bytes, si_pack and patch write others first or over them. -/
theorem storedChecksumIgnored : Obligations.StoredChecksumIgnored := by
  intro img uri sid ver off p a b hp
  have hlocate : locate (splice img (2048 * p + 2042) [a, b]) sid ver = locate img sid ver :=
    locate_splice sid ver hp (.inr ⟨le_rfl, le_rfl⟩)
  refine ⟨hlocate, fun hlen => ⟨siUnpack_splice_footer off a b hlen, siPack_splice_footer off a b hlen⟩, ?_⟩
  have htwo : [a, b].length = 2 := rfl
  have hsame := length_splice img (2048 * p + 2042) [a, b] (by omega)
  by_cases hwhole : img.length % 2048 = 0
  case neg =>
    rw [patch_badImageLength hwhole, patch_badImageLength (by rwa [hsame])]
    rfl
  rcases Nat.lt_or_ge 968 off with hout | hoff
  · rw [patch_recordOutOfBounds hwhole hout, patch_recordOutOfBounds (by rwa [hsame]) hout]
    rfl
  rw [patch_eq hwhole hoff, patch_eq (by rwa [hsame]) hoff, hlocate]
  cases hloc : locate img sid ver with
  | error e => rfl
  | ok o =>
    obtain ⟨q, rfl, hq⟩ := locate_ok_page hloc
    exact congrArg Except.ok (patched_splice_footer a b hp hq hoff)

/-! The command. -/

/-- R48, R235: what PATCH hands to its success end. -/
abbrev patchResults (r : Patched) : Results := { out := some r.image, page := some r.page, sum := some r.sum }

theorem unitResult_patch_ok {s : State} {r : Patched}
    (h : patch (s.region (srcRegion s)) (slotId s) (slotVersion s) (s.region (recRegion s)) s.off = .ok r) :
    unitResult s .patch = .ok (patchResults r) := by
  simp only [unitResult, h]

/-- An error of patch is the error PATCH ends in. -/
theorem exec_patch_error {s : State} {e : CmdError} (hin : s.InBuf s.src s.srcN) (hrec : s.InBuf s.uri 1100)
    (herr : patch (s.region (srcRegion s)) (slotId s) (slotVersion s) (s.region (recRegion s)) s.off = .error e) :
    exec .patch s = .next (s.failedWith e.code) := by
  have hunit : unitResult s .patch = .error e := by simp only [unitResult, herr]
  exact exec_unit_error ((srcRecInside_iff s).2 ⟨hin, hrec⟩) hunit

/-- Settles O42: the checks of R235 in its order; the output has the image's length. -/
theorem patchErrors : Obligations.PatchErrors := by
  intro s
  have hlen : (s.region (srcRegion s)).length = s.srcN := length_region s _
  refine ⟨exec_of_srcRec_outside rfl, fun hin hrec => ⟨fun hbad => ?_, fun hwhole hoff => ?_, fun hwhole hoff hnone => ?_,
    fun p hwhole hoff hp hout => ?_⟩⟩
  · exact exec_patch_error hin hrec (patch_badImageLength (by rwa [hlen]))
  · exact exec_patch_error hin hrec (patch_recordOutOfBounds (by rwa [hlen]) hoff)
  · refine exec_patch_error hin hrec (e := .slotNotResolved) ?_
    rw [patch_eq (by rwa [hlen]) hoff, locate_slotNotResolved hwhole hnone]
    rfl
  · have hpatch := patch_eq (sid := slotId s) (ver := slotVersion s) (uri := s.region (recRegion s)) (by rwa [hlen]) hoff
    rw [locate_of_resolves hwhole hp] at hpatch
    obtain ⟨hpage, -⟩ := hp
    refine exec_output_refused ((srcRecInside_iff s).2 ⟨hin, hrec⟩) (unitResult_patch_ok hpatch) rfl
      (Bool.eq_false_iff.2 fun hallowed => hout ?_)
    rw [length_patched_image (by omega) hoff, hlen] at hallowed
    exact (outputClearOfInputs_iff s _).1 hallowed

/-- R102, decision D21: the two bytes of the stored checksum, little-endian. -/
theorem put16_getD (c : Nat) {k : Nat} (hk : k < 2) :
    (put16 c).getD k 0 = (BitVec.ofNat 16 c).extractLsb' (8 * k) 8 := by
  apply BitVec.eq_of_toNat_eq
  rw [put16, putLe_getD _ _ _ hk, BitVec.extractLsb'_toNat, BitVec.toNat_ofNat, Nat.shiftRight_eq_div_pow]
  interval_cases k <;> omega

/-- R182: the checksum that PATCH answers is the one of the new body as it stands in BUF. -/
theorem checksum_body_of_wrote {s t : State} {d o : Nat} {img : List Byte} (hwrote : WroteExactly s t d img)
    (ho : o + 2040 ≤ img.length) :
    checksum ((img.drop o).take 2040) = hashOf (fun k => t.byteAt (d + o + k)) 2040 := by
  have hlen : ((img.drop o).take 2040).length = 2040 := by rw [List.length_take, List.length_drop]; omega
  rw [checksum_eq_hashOf, hlen]
  refine hashOf_congr _ fun k hk => ?_
  rw [take_getD _ _ _ hk, drop_getD, Nat.add_assoc, hwrote.inside (by omega)]

/-- Settles O41: `patch_ok` on the two input regions, its image written at DST_ADDR. -/
theorem patchCompletes : Obligations.PatchCompletes := by
  intro s p ⟨hin, hrec, hwhole, hoff, hp, hout⟩
  have hlen : (s.region (srcRegion s)).length = s.srcN := length_region s _
  have hrecLen : 1060 ≤ (s.region (recRegion s)).length := by
    rw [length_region]
    exact (by decide : 1060 ≤ Config.uriBytes)
  have hlt : p < s.srcN / 2048 := hp.1
  obtain ⟨r, hpatch, hpage, himage, hsum, hbyte⟩ := patch_ok (by rwa [hlen]) hrecLen hoff (by rwa [hlen])
    (locate_of_resolves hwhole hp)
  rw [hlen] at himage hbyte
  have hwrote : WroteExactly s (successEnd s (patchResults r)) s.dst r.image := successEnd_wroteExactly s _
  have hchecksum : (successEnd s (patchResults r)).checksum = BitVec.ofNat 16 r.sum := rfl
  refine ⟨successEnd s (patchResults r), exec_unit_ok ((srcRecInside_iff s).2 ⟨hin, hrec⟩) (unitResult_patch_ok hpatch)
    fun bs hbs => ?_, ?_, fun k hk => ?_, fun a ha => hwrote.outside (ha.imp_right (himage.symm ▸ ·))⟩
  · cases hbs
    exact (outputClearOfInputs_iff s _).2 (by rwa [himage])
  · rw [← checksum_body_of_wrote hwrote (show 2048 * p + 2040 ≤ r.image.length by omega), ← hsum, ← hpage]
    have hdstLen : BitVec.ofNat 32 r.image.length = s.srcLen := by rw [himage]; exact BitVec.ofNat_toNat ..
    rw [← hdstLen]
    rfl
  · have hinside := hwrote.inside (show k < r.image.length by omega)
    refine hinside.trans ((hbyte k hk).trans ?_)
    rw [hchecksum]
    by_cases hrecord : 2048 * p + s.off ≤ k ∧ k < 2048 * p + s.off + 1060
    · rw [if_pos hrecord, if_pos hrecord]
      exact bytes_getD _ _ _ _ (show _ < 1100 by omega)
    rw [if_neg hrecord, if_neg hrecord]
    by_cases hlow : k = 2048 * p + 2042
    · rw [if_pos hlow, if_pos (by omega), hlow, Nat.sub_self, put16_getD _ (by decide)]
    by_cases hhigh : k = 2048 * p + 2043
    · rw [if_neg hlow, if_pos hhigh, if_pos (by omega), show k - (2048 * p + 2042) = 1 by omega,
        put16_getD _ (by decide)]
    · rw [if_neg hlow, if_neg hhigh, if_neg (by omega)]
      exact bytes_getD _ _ _ _ hk

end Sys2Proof.Machine
end
